-- ==== Sys2Proof/Word.lean ====
section
/-! DEFINITION. The widths of the core's values (00_scope.md R8, R10): bytes and the program counter. -/

namespace Sys2Proof

/-- A byte: a memory cell, a register or an operand (00_scope.md R8: `CELL_WIDTH` and `XLEN` are 8). -/
abbrev Byte := BitVec 8

/-- A program-counter value: 9 bits (00_scope.md R8: `PC_WIDTH`; 10_state.md R24). -/
abbrev PcWord := BitVec 9

end Sys2Proof
end

