-- ==== Sys2Proof/Config.lean ====
section
/-! DEFINITION. The implementation parameters of 00_scope.md R8. -/

namespace Sys2Proof

namespace Config

/-- `MEM_SIZE`: the number of memory cells (00_scope.md R8). -/
abbrev memSize : Nat := 256

/-- `NREG`: the number of general registers (00_scope.md R8). -/
abbrev nreg : Nat := 8

/-- `SP_INDEX`: the register that is the stack pointer (00_scope.md R8, 10_state.md R21). -/
abbrev spIndex : Fin nreg := 7

/-- `PC_RESET` (00_scope.md R8). -/
abbrev pcReset : PcWord := 0

/-- `LOAD_BASE`: where the host writes the first byte of an image (00_scope.md R8). -/
abbrev loadBase : Nat := 0

/-- `MAX_INSN_LEN` in bytes (00_scope.md R8). -/
abbrev maxInsnLen : Nat := 3

end Config

/-- `FETCH_WINDOW`: how many operand bytes the fetch unit reads (92_eei_decisions.md D3). -/
inductive FetchWindow where
  /-- `exact`: only the opcode's own operand bytes. -/
  | exactWindow
  /-- `always3`: two operand bytes for every instruction. -/
  | always3
  deriving DecidableEq, Repr

/-- The two parameters of a run that the spec decides but leaves to be varied (00_scope.md R8,
10_state.md R35). The third, `RAM_FILL`, is the memory a state holds when reset is released. -/
structure Params where
  fetchWindow : FetchWindow
  spReset     : Byte
  deriving DecidableEq, Repr

/-- The values 00_scope.md R8 gives: `FETCH_WINDOW = exact`, `SP_RESET = 0xF4`. -/
def Params.default : Params := { fetchWindow := .exactWindow, spReset := 0xF4 }

end Sys2Proof
end

