-- ==== Sys2Proof/Syntax.lean ====
section
/-! DEFINITION. The 13 instructions (00_scope.md R2, 30_encoding.md R64, R67). -/

namespace Sys2Proof

/-- One constructor per row of the opcode map (30_encoding.md R67), operands in encoding order (R74).
A register operand is the whole operand byte, as the fetch unit reads it: a byte of 8 or more is an operand
the CHECK phase faults on (R65), so it must be expressible. -/
inductive Instr where
  /-- stop execution (44_system.md R121) -/
  | hlt
  /-- pop the return address into `pc` (43_control_transfer.md R118) -/
  | ret
  /-- push a register (42_register_and_stack.md R111) -/
  | push (r : Byte)
  /-- pop into a register (42_register_and_stack.md R112) -/
  | pop (r : Byte)
  /-- output a register (44_system.md R122) -/
  | prn (r : Byte)
  /-- push the return address and jump (43_control_transfer.md R117) -/
  | call (r : Byte)
  /-- jump (43_control_transfer.md R114) -/
  | jmp (r : Byte)
  /-- jump if the equality flag is set (43_control_transfer.md R115) -/
  | jeq (r : Byte)
  /-- jump if the equality flag is clear (43_control_transfer.md R116) -/
  | jne (r : Byte)
  /-- load an immediate (42_register_and_stack.md R110) -/
  | ldi (r imm : Byte)
  /-- add (41_alu.md R106) -/
  | add (a b : Byte)
  /-- multiply (41_alu.md R107) -/
  | mul (a b : Byte)
  /-- compare (41_alu.md R108) -/
  | cmp (a b : Byte)
  deriving DecidableEq, Repr

end Sys2Proof
end

