-- ==== Sys2Proof/Decode.lean ====
section
/-! DEFINITION. The decoder (40_sequencer.md R87, 30_encoding.md R63 to R72) and, after it, the encoder. -/

namespace Sys2Proof

/-- `trunc8` (00_scope.md R11): the value modulo 256. -/
def trunc8 (n : Nat) : Byte := BitVec.ofNat 8 n

/-- `zext_9` (00_scope.md R11): a byte widened to a program-counter value with zeros. -/
def zext9 (b : Byte) : PcWord := b.setWidth 9

/-- The kinds of instruction: the "closed tagged enumeration" of 40_sequencer.md R87. -/
inductive Op where
  | hlt | ret | push | pop | prn | call | jmp | jeq | jne | ldi | add | mul | cmp
  deriving DecidableEq, Repr

/-- The four instruction formats (30_encoding.md R64). -/
inductive Format where
  /-- no operand -/
  | n
  /-- one register -/
  | r
  /-- register, immediate -/
  | ri
  /-- two registers -/
  | rr
  deriving DecidableEq, Repr

/-- The tag the decoder gives the ALU (41_alu.md R103). -/
inductive AluTag where
  | add | mul | cmp
  deriving DecidableEq, Repr

/-- The rows of the opcode map, in the table's order (30_encoding.md R67). -/
def Op.all : List Op := [.hlt, .ret, .push, .pop, .prn, .call, .jmp, .jeq, .jne, .ldi, .add, .mul, .cmp]

/-- The opcode byte of a row (30_encoding.md R67). -/
def Op.code : Op → Byte
  | .hlt => 0x01
  | .ret => 0x11
  | .push => 0x45
  | .pop => 0x46
  | .prn => 0x47
  | .call => 0x50
  | .jmp => 0x54
  | .jeq => 0x55
  | .jne => 0x56
  | .ldi => 0x82
  | .add => 0xA0
  | .mul => 0xA2
  | .cmp => 0xA7

/-- The format of a row (30_encoding.md R67). -/
def Op.format : Op → Format
  | .hlt => .n
  | .ret => .n
  | .push => .r
  | .pop => .r
  | .prn => .r
  | .call => .r
  | .jmp => .r
  | .jeq => .r
  | .jne => .r
  | .ldi => .ri
  | .add => .rr
  | .mul => .rr
  | .cmp => .rr

/-- `nops`: the number of operand bytes (30_encoding.md R63, R64). -/
def Format.nops : Format → Nat
  | .n => 0
  | .r => 1
  | .ri => 2
  | .rr => 2

/-- `regfields`: the operand bytes that name registers (40_sequencer.md R85). -/
def Format.regFields : Format → List Nat
  | .n => []
  | .r => [1]
  | .ri => [1]
  | .rr => [1, 2]

/-- `nops(op)` (30_encoding.md R67). -/
def Op.nops (o : Op) : Nat := o.format.nops

/-- `len(op) = 1 + nops(op)` (30_encoding.md R63). -/
def Op.len (o : Op) : Nat := 1 + o.nops

/-- The ALU tag of a row, if it uses the ALU (40_sequencer.md R87). -/
def Op.aluTag : Op → Option AluTag
  | .add => some .add
  | .mul => some .mul
  | .cmp => some .cmp
  | _ => none

/-- The decoder as a function of the opcode byte alone (40_sequencer.md R87): the row whose full 8 bits match,
or none for the 243 bytes of 30_encoding.md R69. -/
def decodeOpcode (b : Byte) : Option Op := Op.all.find? fun o => o.code == b

/-- The instruction a row stands for with its operand bytes `b[1]` and `b[2]` (30_encoding.md R64). -/
def assemble (o : Op) (b1 b2 : Byte) : Instr :=
  match o with
  | .hlt => .hlt
  | .ret => .ret
  | .push => .push b1
  | .pop => .pop b1
  | .prn => .prn b1
  | .call => .call b1
  | .jmp => .jmp b1
  | .jeq => .jeq b1
  | .jne => .jne b1
  | .ldi => .ldi b1 b2
  | .add => .add b1 b2
  | .mul => .mul b1 b2
  | .cmp => .cmp b1 b2

/-- The k-th byte of a list of operand bytes. -/
def operand (bs : List Byte) (k : Nat) : Byte := bs[k]?.getD 0

/-- Why a list of bytes is no instruction. -/
inductive DecodeError where
  /-- there is no opcode byte -/
  | empty
  /-- the first byte is none of the 13 opcodes (30_encoding.md R69) -/
  | unknownOpcode (op : Byte)
  /-- the operand bytes of the row are not all there (30_encoding.md R63) -/
  | truncated (o : Op)
  deriving DecidableEq, Repr

/-- The instruction at the front of a list of bytes, lowest address first (20_memory.md R49), and the bytes after it. -/
def decode : List Byte → Except DecodeError (Instr × List Byte)
  | [] => .error .empty
  | op :: rest =>
    match decodeOpcode op with
    | none => .error (.unknownOpcode op)
    | some o =>
      if rest.length < o.nops then .error (.truncated o)
      else .ok (assemble o (operand rest 0) (operand rest 1), rest.drop o.nops)

/-- The row an instruction belongs to. -/
def Instr.op : Instr → Op
  | .hlt => .hlt
  | .ret => .ret
  | .push _ => .push
  | .pop _ => .pop
  | .prn _ => .prn
  | .call _ => .call
  | .jmp _ => .jmp
  | .jeq _ => .jeq
  | .jne _ => .jne
  | .ldi _ _ => .ldi
  | .add _ _ => .add
  | .mul _ _ => .mul
  | .cmp _ _ => .cmp

/-- The operand bytes of an instruction in encoding order (30_encoding.md R64). -/
def Instr.operands : Instr → List Byte
  | .hlt => []
  | .ret => []
  | .push r => [r]
  | .pop r => [r]
  | .prn r => [r]
  | .call r => [r]
  | .jmp r => [r]
  | .jeq r => [r]
  | .jne r => [r]
  | .ldi r imm => [r, imm]
  | .add a b => [a, b]
  | .mul a b => [a, b]
  | .cmp a b => [a, b]

/-- The encoder: opcode byte, then operand bytes (30_encoding.md R64, R67). -/
def encode (i : Instr) : List Byte := i.op.code :: i.operands

/-- The bytes of an instruction numbered as spec/opcode_table.json numbers them: byte 0 is bits 7:0. Every bit above
`nbits` is 0, up to the longest instruction. -/
def tableBytes (nbits w : Nat) : List Byte :=
  [trunc8 (w % 2 ^ nbits), trunc8 (w % 2 ^ nbits / 2 ^ 8), trunc8 (w % 2 ^ nbits / 2 ^ 16)]

/-- The instruction the decoder reads from a word of the opcode table. -/
def decodeTableWord (nbits w : Nat) : Option Instr :=
  match decode (tableBytes nbits w) with
  | .ok (i, _) => some i
  | .error _ => none

end Sys2Proof
end

