-- ==== Sys2Proof/Machine/Flags.lean ====
section
/-! DEFINITION. The ALU and the one flag it computes (41_alu.md R103, R104; 10_state.md R27). -/

namespace Sys2Proof.Machine

/-- What the ALU puts out: the result `Y`, or the equality output `EQ`; the other output is unused (41_alu.md R103). -/
inductive AluOut where
  | result (y : Byte)
  | equal (eq : Bool)
  deriving DecidableEq, Repr

/-- The equality flag of a compare: the 8-bit values are the same (41_alu.md R104, R108). -/
def eqFlag (a b : Byte) : Bool := a == b

/-- The ALU (41_alu.md R103): exact unsigned arithmetic, then `trunc8`. -/
def alu : AluTag → Byte → Byte → AluOut
  | .add, a, b => .result (trunc8 (a.toNat + b.toNat))
  | .mul, a, b => .result (trunc8 (a.toNat * b.toNat))
  | .cmp, a, b => .equal (eqFlag a b)

end Sys2Proof.Machine
end

