-- ==== Sys2Proof/Machine/State.lean ====
section
/-! DEFINITION. Everything the spec gives the machine to hold (10_state.md), and its value at reset (10_state.md R40). -/

namespace Sys2Proof.Machine

/-- The run state: the three values of 10_state.md R28 and the "held in reset" of 40_sequencer.md R83. These are the
four values of `status` (10_state.md R37). DEDUCED: one field holds all four (log entry 2). -/
inductive RunState where
  | inReset
  | running
  | halted
  | faulted
  deriving DecidableEq, Repr

/-- `fault_code` (10_state.md R29). -/
inductive FaultCode where
  | none
  | unknownOpcode
  | outOfRange
  | unsupportedAluOp
  deriving DecidableEq, Repr

/-- `fault_kind` (10_state.md R29). -/
inductive FaultKind where
  | none
  | memoryAddress
  | registerIndex
  | returnAddress
  deriving DecidableEq, Repr

/-- The fault record (10_state.md R29). -/
structure FaultRecord where
  code : FaultCode
  kind : FaultKind
  pc   : PcWord
  info : BitVec 9
  deriving DecidableEq, Repr

/-- The fault record after reset: every field 0 (10_state.md R30, R40). -/
def FaultRecord.clear : FaultRecord := { code := .none, kind := .none, pc := 0, info := 0 }

/-- The levels of the input ports, `clk` apart (10_state.md R36). -/
structure Pins where
  rst    : Bool
  ldEn   : Bool
  ldAddr : Byte
  ldData : Byte
  deriving DecidableEq, Repr

/-- All input ports at 0. DESIGN CHOICE (log entry 3). -/
def Pins.low : Pins := { rst := false, ldEn := false, ldAddr := 0, ldData := 0 }

/-- The memory `M` (10_state.md R32) as address and byte pairs in one canonical form (`Memory.wf`). -/
abbrev Memory := List Host.Cell

/-- The state of the core. The first seven fields are its architectural state (10_state.md R20 to R32). The last two are
not: `params` holds the parameters of the run (R35, log entry 7) and `pins` the levels of the input ports that the
next step sees (R36, log entry 3). -/
structure State where
  x      : Vector Byte Config.nreg
  pc     : PcWord
  fl     : Bool
  run    : RunState
  fault  : FaultRecord
  out    : List Byte
  mem    : Memory
  params : Params
  pins   : Pins
  deriving DecidableEq, Repr

/-- Why the model stops with a fault of its own: never. Every fatal error of the spec has an entry the spec describes
(60_exceptions.md R130), so the model takes it as a next state in FAULTED; the spec leaves no behaviour undefined.
No one raises a fault, and having none is safe (log entry 1). -/
inductive Fault where
  deriving DecidableEq, Repr

/-- Why an instruction has no meaning. -/
inductive Refusal where
  /-- Raised by `exec` for an instruction that is not modelled yet; safe, since it only stops. No arm raises it now. -/
  | notModelled (mnemonic : String)
  deriving DecidableEq, Repr

/-- The registers after reset: 0 but for the stack pointer (10_state.md R40). -/
def resetRegs (p : Params) : Vector Byte Config.nreg := (Vector.replicate Config.nreg 0).set 7 p.spReset

/-- The core just after `rst` is released, with the parameters of 00_scope.md R8 and memory with nothing listed
(10_state.md R40). The memory and the pins are the model's choices (log entries 3 and 6). -/
def State.reset : State where
  x      := resetRegs Params.default
  pc     := Config.pcReset
  fl     := false
  run    := .running
  fault  := FaultRecord.clear
  out    := []
  mem    := []
  params := Params.default
  pins   := Pins.low

end Sys2Proof.Machine
end

