-- ==== Sys2Proof/Machine/Ops.lean ====
section
/-! DEFINITION. The primitives of 00_scope.md R11 over memory, registers and the rest of the state, entering FAULTED
(60_exceptions.md R130), and being held in and leaving reset (70_reset_and_hazards.md R146), the only way back. -/

namespace Sys2Proof.Machine

/-! ### Memory -/

/-- What an address that is not listed reads as. DESIGN CHOICE: the spec leaves the content of memory that no one
has written open (20_memory.md R55, `RAM_FILL`); log entry 6. -/
def Memory.unlisted (_a : Nat) : Byte := 0

/-- The byte listed at an address. -/
def Memory.lookup : Memory → Nat → Option Byte
  | [], _ => none
  | (k, v) :: m, a => if k = a then some v else Memory.lookup m a

/-- The byte at an address (20_memory.md R56). -/
def Memory.read (m : Memory) (a : Nat) : Byte := (m.lookup a).getD (Memory.unlisted a)

/-- The list with the byte `v` at address `a`, written so that the canonical form is kept: `v` is listed in address order,
or not listed at all where an unlisted address reads as `v`. -/
def Memory.write : Memory → Nat → Byte → Memory
  | [], a, v => if v = Memory.unlisted a then [] else [(a, v)]
  | (k, w) :: m, a, v =>
    if a < k then (if v = Memory.unlisted a then (k, w) :: m else (a, v) :: (k, w) :: m)
    else if a = k then (if v = Memory.unlisted a then m else (a, v) :: m)
    else (k, w) :: Memory.write m a v

/-- The canonical form: addresses strictly rising, each a cell of the memory, and no cell listed that need not be. -/
abbrev Memory.wf (m : Memory) : Prop :=
  m.Pairwise (fun p q => p.1 < q.1) ∧ ∀ p ∈ m, p.1 < Config.memSize ∧ p.2 ≠ Memory.unlisted p.1

/-! ### Registers and the rest of the state -/

/-- Reading `x[i]` (00_scope.md R11). No register is hardwired (10_state.md R22). -/
def State.reg (s : State) (i : Fin Config.nreg) : Byte := s.x[i.val]

/-- `x[i] <- v` (00_scope.md R11). -/
def State.setReg (s : State) (i : Fin Config.nreg) (v : Byte) : State := { s with x := s.x.set i.val v i.isLt }

/-- `SP`, another name for `x[7]` (10_state.md R21). -/
def State.sp (s : State) : Byte := s.reg Config.spIndex

/-- `x[7] <- v`. -/
def State.setSp (s : State) (v : Byte) : State := s.setReg Config.spIndex v

/-- `x[7] <- trunc8(x[7] - 1)` (20_memory.md R62). -/
def State.decSp (s : State) : State := s.setSp (s.sp - 1)

/-- `x[7] <- trunc8(x[7] + 1)` (20_memory.md R62). -/
def State.incSp (s : State) : State := s.setSp (s.sp + 1)

/-- `pc <- t` (00_scope.md R11). -/
def State.setPc (s : State) (t : PcWord) : State := { s with pc := t }

/-- `fl <- b` (00_scope.md R11). -/
def State.setFl (s : State) (b : Bool) : State := { s with fl := b }

/-- `run <- r` (00_scope.md R11). -/
def State.setRun (s : State) (r : RunState) : State := { s with run := r }

/-- `MemRead(a, 1)` at a data address, which is a byte and so always in range (20_memory.md R46, R62). -/
def State.memRead (s : State) (a : Byte) : Byte := s.mem.read a.toNat

/-- `MemWrite(a, 1, v)` at a data address or from the load port. -/
def State.memWrite (s : State) (a : Byte) (v : Byte) : State := { s with mem := s.mem.write a.toNat v }

/-- `Out(v)`: append to the output stream (10_state.md R31). -/
def State.output (s : State) (v : Byte) : State := { s with out := s.out ++ [v] }

/-- The input ports at new levels. -/
def State.withPins (s : State) (p : Pins) : State := { s with pins := p }

/-- The bytes stored at an address and those after it, as far as the memory goes. -/
def State.storeBytes (s : State) (a : Nat) : List Byte → State
  | [] => s
  | b :: bs =>
    State.storeBytes (if a < Config.memSize then { s with mem := s.mem.write a b } else s) (a + 1) bs

/-! ### Entering FAULTED -/

/-- What a fault is raised for (60_exceptions.md R126). -/
inductive FaultCause where
  /-- the byte at `pc` is none of the 13 opcodes (R127) -/
  | unknownOpcode (op : Byte)
  /-- a fetch at an address of 256 or more (R128, kind 1) -/
  | memoryAddress (a : BitVec 9)
  /-- a register-operand byte of 8 or more (R128, kind 2) -/
  | registerIndex (b : Byte)
  /-- a return address no cell can hold (R128, kind 3) -/
  | returnAddress (a : BitVec 9)
  /-- a tag the ALU does not know (R129); nothing raises it -/
  | unsupportedAluOp (tag : BitVec 9)
  deriving DecidableEq, Repr

/-- `fault_code` of a cause (60_exceptions.md R126). -/
def FaultCause.code : FaultCause → FaultCode
  | .unknownOpcode _ => .unknownOpcode
  | .memoryAddress _ => .outOfRange
  | .registerIndex _ => .outOfRange
  | .returnAddress _ => .outOfRange
  | .unsupportedAluOp _ => .unsupportedAluOp

/-- `fault_kind` of a cause (60_exceptions.md R126). -/
def FaultCause.kind : FaultCause → FaultKind
  | .unknownOpcode _ => .none
  | .memoryAddress _ => .memoryAddress
  | .registerIndex _ => .registerIndex
  | .returnAddress _ => .returnAddress
  | .unsupportedAluOp _ => .none

/-- `fault_info` of a cause (60_exceptions.md R126). -/
def FaultCause.info : FaultCause → BitVec 9
  | .unknownOpcode op => op.setWidth 9
  | .memoryAddress a => a
  | .registerIndex b => b.setWidth 9
  | .returnAddress a => a
  | .unsupportedAluOp tag => tag

/-- Raising a fault (60_exceptions.md R130): the fault record and `run` are written and nothing else. -/
def raise (c : FaultCause) (s : State) : State :=
  { s with fault := { code := c.code, kind := c.kind, pc := s.pc, info := c.info }, run := .faulted }

/-! ### Leaving FAULTED and HALTED: reset

The core has no trap-return instruction (60_exceptions.md R125, R133); reset is the only way out (70_reset_and_hazards.md R147). -/

/-- The effect of `rst = 1` (70_reset_and_hazards.md R146): the values of 10_state.md R40, memory not written. -/
def holdInReset (s : State) : State :=
  { s with
    x := resetRegs s.params
    pc := Config.pcReset
    fl := false
    run := .inReset
    fault := FaultRecord.clear
    out := [] }

/-- One transfer of the load port, honoured only while `rst = 1` (10_state.md R38). -/
def loadPort (s : State) : State :=
  if s.pins.ldEn then s.memWrite s.pins.ldAddr s.pins.ldData else s

/-- `rst` goes from 1 to 0: `run` becomes RUNNING (70_reset_and_hazards.md R146). -/
def releaseReset (s : State) : State := s.setRun .running

end Sys2Proof.Machine
end

