-- ==== Sys2Proof/Machine/Operands.lean ====
section
/-! DEFINITION. The operand forms: the CHECK of a register operand (30_encoding.md R65, 40_sequencer.md R85) and the next-PC
sources (40_sequencer.md R93). SP-indirect, the only data addressing mode (20_memory.md R62), is `State.sp`,
`State.decSp` and `State.incSp` with `State.memRead` and `State.memWrite`. -/

namespace Sys2Proof.Machine

/-- The outcome of a step of this machine. -/
abbrev Result := Host.Outcome State Fault Refusal

/-- CHECK of a register operand (40_sequencer.md R85): a byte below 8 names a register and the instruction goes on with it;
any other byte raises OutOfRangeAccess(REG_INDEX) in the state before the instruction. -/
def withReg (b : Byte) (s : State) (body : Fin Config.nreg → Result) : Result :=
  if h : b.toNat < Config.nreg then body ⟨b.toNat, h⟩ else .next (raise (.registerIndex b) s)

/-- CHECK of both register operands of format `RR`: operand a first, then operand b (30_encoding.md R70). -/
def withRegs (a b : Byte) (s : State) (body : Fin Config.nreg → Fin Config.nreg → Result) : Result :=
  withReg a s fun i => withReg b s fun j => body i j

/-- The fall-through address `pc + len`, a 9-bit sum (40_sequencer.md R93). -/
def State.fallThrough (s : State) (len : PcWord) : PcWord := s.pc + len

/-- The target of a jump through a register (40_sequencer.md R93). -/
def State.jumpTarget (s : State) (i : Fin Config.nreg) : PcWord := zext9 (s.reg i)

/-- A conditional jump: `x[r]` if taken, else the fall-through of the two-byte format (40_sequencer.md R93). -/
def branch (taken : Bool) (r : Byte) (s : State) : Result :=
  withReg r s fun i => .next (s.setPc (if taken then s.jumpTarget i else s.fallThrough 2))

end Sys2Proof.Machine
end

