-- ==== Sys2Proof/Machine/Alu.lean ====
section
/-! DEFINITION. ADD, MUL and CMP (41_alu.md R106 to R108): CHECK and Execute of 40_sequencer.md R85. -/

namespace Sys2Proof.Machine

/-- The shared form of the ALU instructions: both registers are read before anything is written, `Y` goes to `x[a]` and `EQ`
to `fl` (41_alu.md R103), and `pc` moves on by 3. -/
def execAlu (tag : AluTag) (a b : Byte) (s : State) : Result :=
  withRegs a b s fun i j =>
    match alu tag (s.reg i) (s.reg j) with
    | .result y => .next ((s.setReg i y).setPc (s.fallThrough 3))
    | .equal e => .next ((s.setFl e).setPc (s.fallThrough 3))

/-- `ADD Ra Rb` (41_alu.md R106). -/
def execAdd (a b : Byte) (s : State) : Result := execAlu .add a b s

/-- `MUL Ra Rb` (41_alu.md R107). -/
def execMul (a b : Byte) (s : State) : Result := execAlu .mul a b s

/-- `CMP Ra Rb` (41_alu.md R108). -/
def execCmp (a b : Byte) (s : State) : Result := execAlu .cmp a b s

end Sys2Proof.Machine
end

