-- ==== Sys2Proof/Machine/Stack.lean ====
section
/-! DEFINITION. LDI, PUSH and POP (42_register_and_stack.md R110 to R112). The statements of each run in the order the rule
writes them, each on the state the one before left (40_sequencer.md R90), which decides what happens when the operand
names SP (R92). -/

namespace Sys2Proof.Machine

/-- `LDI Rr imm` (42_register_and_stack.md R110). -/
def execLdi (r imm : Byte) (s : State) : Result :=
  withReg r s fun i => .next ((s.setReg i imm).setPc (s.fallThrough 3))

/-- Decrement SP, then write a byte where it points. The byte may depend on the state after the decrement. -/
def pushByte (v : State → Byte) (s : State) : State :=
  (s.decSp).memWrite s.decSp.sp (v s.decSp)

/-- `PUSH Rr` (42_register_and_stack.md R111): `x[r]` is read after the decrement. -/
def execPush (r : Byte) (s : State) : Result :=
  withReg r s fun i => .next ((pushByte (fun t => t.reg i) s).setPc (s.fallThrough 2))

/-- `POP Rr` (42_register_and_stack.md R112): SP is incremented after the write to `x[r]`. -/
def execPop (r : Byte) (s : State) : Result :=
  withReg r s fun i => .next ((s.setReg i (s.memRead s.sp)).incSp.setPc (s.fallThrough 2))

end Sys2Proof.Machine
end

