-- ==== Sys2Proof/Machine/Control.lean ====
section
/-! DEFINITION. JMP, JEQ, JNE, CALL and RET (43_control_transfer.md R114 to R118). -/

namespace Sys2Proof.Machine

/-- `JMP Rr` (43_control_transfer.md R114). -/
def execJmp (r : Byte) (s : State) : Result :=
  withReg r s fun i => .next (s.setPc (s.jumpTarget i))

/-- `JEQ Rr` (43_control_transfer.md R115). -/
def execJeq (r : Byte) (s : State) : Result := branch s.fl r s

/-- `JNE Rr` (43_control_transfer.md R116). -/
def execJne (r : Byte) (s : State) : Result := branch (!s.fl) r s

/-- `CALL Rr` (43_control_transfer.md R117): the return address must fit a cell, and is checked after the register operand
and before any write (40_sequencer.md R85); `x[r]` is read after SP is decremented. -/
def execCall (r : Byte) (s : State) : Result :=
  withReg r s fun i =>
    if Config.memSize ≤ s.pc.toNat + 2 then .next (raise (.returnAddress (s.fallThrough 2)) s)
    else
      let t := pushByte (fun _ => trunc8 (s.pc.toNat + 2)) s
      .next (t.setPc (t.jumpTarget i))

/-- `RET` (43_control_transfer.md R118). -/
def execRet (s : State) : Result :=
  .next ((s.setPc (zext9 (s.memRead s.sp))).incSp)

end Sys2Proof.Machine
end

