-- ==== Sys2Proof/Machine/System.lean ====
section
/-! DEFINITION. HLT and PRN (44_system.md R121, R122). -/

namespace Sys2Proof.Machine

/-- `HLT` (44_system.md R121): `pc` still holds the address of the HLT byte. -/
def execHlt (s : State) : Result := .next (s.setRun .halted)

/-- `PRN Rr` (44_system.md R122). -/
def execPrn (r : Byte) (s : State) : Result :=
  withReg r s fun i => .next ((s.output (s.reg i)).setPc (s.fallThrough 2))

end Sys2Proof.Machine
end

