-- ==== Sys2Proof/Machine/Fetch.lean ====
section
/-! DEFINITION. The FETCH_OP, DECODE and FETCH_OPERANDS phases (40_sequencer.md R85 to R87). -/

namespace Sys2Proof.Machine

/-- Fetching one byte: the address is exact, so 256 and above fault instead of wrapping (40_sequencer.md R86). -/
def fetchByte (s : State) (a : Nat) : Except FaultCause Byte :=
  if Config.memSize ≤ a then .error (.memoryAddress (BitVec.ofNat 9 a)) else .ok (s.mem.read a)

/-- Fetching `n` bytes from an address on, in ascending order; the first that fails is the one reported. -/
def fetchFrom (s : State) : Nat → Nat → Except FaultCause (List Byte)
  | _, 0 => .ok []
  | a, n + 1 =>
    match fetchByte s a with
    | .error c => .error c
    | .ok b =>
      match fetchFrom s (a + 1) n with
      | .error c => .error c
      | .ok bs => .ok (b :: bs)

/-- How many operand bytes are fetched (40_sequencer.md R85, `w`). -/
def operandWindow : FetchWindow → Op → Nat
  | .exactWindow, o => o.nops
  | .always3, _ => 2

/-- The instruction at `pc`, or the first fault of the fetch and decode phases. Bytes fetched beyond the operands of the
instruction are thrown away by `assemble`. -/
def fetchInstr (s : State) : Except FaultCause Instr :=
  match fetchByte s s.pc.toNat with
  | .error c => .error c
  | .ok b =>
    match decodeOpcode b with
    | none => .error (.unknownOpcode b)
    | some o =>
      match fetchFrom s (s.pc.toNat + 1) (operandWindow s.params.fetchWindow o) with
      | .error c => .error c
      | .ok bs => .ok (assemble o (operand bs 0) (operand bs 1))

end Sys2Proof.Machine
end

