-- ==== Sys2Proof/Machine/Step.lean ====
section
/-! DEFINITION. One step: the transitions of 40_sequencer.md R83, a step in RUNNING being R85. -/

namespace Sys2Proof.Machine

/-- One step, at the levels the input ports have. `rst = 1` holds the core in reset from any state and honours the load port;
with `rst = 0`, being held ends, RUNNING runs one instruction, and HALTED and FAULTED stay as they are (40_sequencer.md
R83, R91). Log entries 1, 4, 5 and 11. -/
def step (s : State) : Host.Outcome State Fault Refusal :=
  if s.pins.rst then .next (loadPort (holdInReset s))
  else
    match s.run with
    | .inReset => .next (releaseReset s)
    | .running =>
      match fetchInstr s with
      | .error c => .next (raise c s)
      | .ok i => exec i s
    | .halted => .next s
    | .faulted => .next s

/-- The state with an instruction of the opcode table stored where the next step fetches, and running: `rst` is 0 and `run`
is RUNNING, without which no step fetches. It stands for the host's load (log entry 12). -/
def State.withFetchWord (s : State) (nbits w : Nat) : State :=
  let t := s.storeBytes s.pc.toNat (tableBytes nbits w)
  { t with run := .running, pins := { t.pins with rst := false } }

end Sys2Proof.Machine
end

