-- ==== Sys2Proof/Machine/Boot.lean ====
section
/-! DEFINITION. The contract of the host with the core: program text, boot, output text and exit status
(30_encoding.md R73; 70_reset_and_hazards.md R149, R150; 60_exceptions.md R135, R139, R143). -/

namespace Sys2Proof.Machine

/-! ### Program text (30_encoding.md R73) -/

/-- Why the host refuses a load (60_exceptions.md R135). -/
inductive LoadError where
  /-- the program source is missing -/
  | programNotFound
  /-- a line is no 8-bit binary literal -/
  | badLine
  /-- the image has more than 256 bytes -/
  | tooLong
  deriving DecidableEq, Repr

/-- The text before the first `#`, trimmed of white space (30_encoding.md R73). What white space is, is a DESIGN
CHOICE (log entry 16). -/
def preComment (line : List Char) : List Char :=
  (((line.takeWhile (· != '#')).dropWhile Char.isWhitespace).reverse.dropWhile Char.isWhitespace).reverse

/-- A binary digit. -/
def bitOf : Char → Option Nat
  | '0' => some 0
  | '1' => some 1
  | _ => none

/-- The value of a run of binary digits, the first the most significant (00_scope.md R9). -/
def bitsValue : Nat → List Char → Option Nat
  | acc, [] => some acc
  | acc, c :: cs =>
    match bitOf c with
    | none => none
    | some d => bitsValue (2 * acc + d) cs

/-- One line: nothing if its pre-comment content is empty, else its byte, which takes exactly 8 binary digits
(92_eei_decisions.md D15). -/
def parseLine (line : List Char) : Except LoadError (Option Byte) :=
  let text := preComment line
  if text.isEmpty then .ok none
  else if text.length = 8 then
    match bitsValue 0 text with
    | some v => .ok (some (trunc8 v))
    | none => .error .badLine
  else .error .badLine

/-- The bytes of the non-skipped lines, in line order (30_encoding.md R73). -/
def parseLines : List (List Char) → Except LoadError (List Byte)
  | [] => .ok []
  | line :: rest =>
    match parseLine line, parseLines rest with
    | .ok none, .ok bs => .ok bs
    | .ok (some b), .ok bs => .ok (b :: bs)
    | .error e, _ => .error e
    | _, .error e => .error e

/-- The lines of a text, separated by newlines. -/
def splitLines : List Char → List (List Char)
  | [] => [[]]
  | c :: cs =>
    if c = '\n' then [] :: splitLines cs
    else
      match splitLines cs with
      | [] => [[c]]
      | l :: ls => (c :: l) :: ls

/-- The image a program source gives, or why the load is refused (70_reset_and_hazards.md R149, 60_exceptions.md R135). A missing
source is `none`. DESIGN CHOICE (log entry 20): the spec gives no order between a bad line and a source of more
than 256 bytes; a source with both is reported as `badLine`. -/
def loadProgram : Option (List Char) → Except LoadError (List Byte)
  | none => .error .programNotFound
  | some text =>
    match parseLines (splitLines text) with
    | .error e => .error e
    | .ok image => if Config.memSize < image.length then .error .tooLong else .ok image

/-! ### Boot (70_reset_and_hazards.md R149) -/

/-- `rst = 1` and no load transfer. -/
def Pins.held : Pins := { rst := true, ldEn := false, ldAddr := 0, ldData := 0 }

/-- `rst = 1` and one transfer of the load port. -/
def Pins.load (a : Byte) (v : Byte) : Pins := { rst := true, ldEn := true, ldAddr := a, ldData := v }

/-- The transfers that write an image from an address on, each byte once. -/
def loadPins : Nat → List Byte → List Pins
  | _, [] => []
  | a, b :: bs => Pins.load (trunc8 a) b :: loadPins (a + 1) bs

/-- The levels the host drives to boot: assert `rst`; load the image and release `rst`, or, if the load is refused, write
nothing and never release it (70_reset_and_hazards.md R149, R150). -/
def bootPins : Except LoadError (List Byte) → List Pins
  | .error _ => [Pins.held]
  | .ok image => Pins.held :: (loadPins Config.loadBase image ++ [Pins.low])

/-- One step with the input ports at given levels. -/
def clock (p : Pins) (s : State) : Host.Outcome State Fault Refusal := step (s.withPins p)

/-- One step for each of a list of levels. -/
def runPins : List Pins → State → Host.Outcome State Fault Refusal
  | [], s => .next s
  | p :: ps, s =>
    match clock p s with
    | .next t => runPins ps t
    | .fault r => .fault r
    | .refused r => .refused r

/-! ### Output text and exit status -/

/-- The decimal digits of a byte, without leading zeros (60_exceptions.md R139). -/
def decimal (v : Byte) : List Char := Nat.toDigits 10 v.toNat

/-- The text the host writes for an output stream: each byte in decimal and a newline (60_exceptions.md R139).
DESIGN CHOICE (log entry 21): the newline is one line feed; the spec assumes no particular terminator
(91_not_in_source.md N24). -/
def renderOut (out : List Byte) : List Char := out.flatMap fun v => decimal v ++ ['\n']

/-- How a run of the host ends. -/
inductive HostEnd where
  /-- the core halted -/
  | halted
  /-- the core faulted -/
  | faulted
  /-- the load was refused -/
  | loadRefused (e : LoadError)
  deriving DecidableEq, Repr

/-- The exit statuses the spec allows (60_exceptions.md R143, 92_eei_decisions.md D20). Of a refused load with a source it says
only that the status is non-zero (log entry 17). -/
def exitStatusAllowed : HostEnd → Nat → Bool
  | .halted, n => n == 0
  | .faulted, n => n == 1
  | .loadRefused .programNotFound, n => n == 2
  | .loadRefused _, n => n != 0

end Sys2Proof.Machine
end

