-- ==== Sys2Proof/Machine/Ports.lean ====
section
/-! DEFINITION. The output ports (10_state.md R36, R37, R39): views of the state, and of a step for `out_valid`. -/

namespace Sys2Proof.Machine

/-- `status` (10_state.md R37). -/
def RunState.status : RunState → BitVec 2
  | .inReset => 0
  | .running => 1
  | .halted => 2
  | .faulted => 3

/-- The number of a `fault_code` (10_state.md R29). -/
def FaultCode.bits : FaultCode → BitVec 2
  | .none => 0
  | .unknownOpcode => 1
  | .outOfRange => 2
  | .unsupportedAluOp => 3

/-- The number of a `fault_kind` (10_state.md R29). -/
def FaultKind.bits : FaultKind → BitVec 2
  | .none => 0
  | .memoryAddress => 1
  | .registerIndex => 2
  | .returnAddress => 3

/-- The levels of the output ports (10_state.md R36). -/
structure PortsOut where
  outValid  : Bool
  outData   : Byte
  status    : BitVec 2
  faultCode : BitVec 2
  faultKind : BitVec 2
  faultPc   : PcWord
  faultInfo : BitVec 9
  dbgPc     : PcWord
  dbgM      : Vector Byte 3
  dbgX      : Vector Byte Config.nreg
  deriving DecidableEq, Repr

/-- `dbg_m<k>`: the byte at `pc + k`, or 0 past the end of memory (10_state.md R36). -/
def State.dbgMem (s : State) (k : Nat) : Byte :=
  if s.pc.toNat + k < Config.memSize then s.mem.read (s.pc.toNat + k) else 0

/-- A step from `s` to `t` made a transfer on the output port: `out` grew (10_state.md R36). -/
def outValid (s t : State) : Bool := s.out.length < t.out.length

/-- The output ports once the step from `s` to `t` is committed (40_sequencer.md R96). `outData` has a meaning only when
`outValid` is true. -/
def ports (s t : State) : PortsOut where
  outValid  := outValid s t
  outData   := t.out.getLast?.getD 0
  status    := t.run.status
  faultCode := t.fault.code.bits
  faultKind := t.fault.kind.bits
  faultPc   := t.fault.pc
  faultInfo := t.fault.info
  dbgPc     := t.pc
  dbgM      := #v[t.dbgMem 0, t.dbgMem 1, t.dbgMem 2]
  dbgX      := t.x

end Sys2Proof.Machine
end

