-- ==== Sys2Proof/WellFormed.lean ====
section
/-! DEFINITION. When the operands of an instruction are legal (30_encoding.md R65, R66, R70). -/

namespace Sys2Proof

/-- The bytes in the register fields, in the order they are checked (40_sequencer.md R85, `regfields`). -/
def Instr.regBytes : Instr → List Byte
  | .hlt => []
  | .ret => []
  | .push r => [r]
  | .pop r => [r]
  | .prn r => [r]
  | .call r => [r]
  | .jmp r => [r]
  | .jeq r => [r]
  | .jne r => [r]
  | .ldi r _ => [r]
  | .add a b => [a, b]
  | .mul a b => [a, b]
  | .cmp a b => [a, b]

/-- Every register field names a register (30_encoding.md R70); an immediate is always legal. -/
def Instr.wf (i : Instr) : Bool := i.regBytes.all fun r => r.toNat < Config.nreg

end Sys2Proof
end

