-- ==== Sys2Proof/Safety.lean ====
section
/-! DEFINITION. The terms the statements use: when an instruction runs, what a fault leaves, the tables of what an instruction
may write, the invariant, and the end of a run. They are the spec's tables written apart from the meanings. -/

namespace Sys2Proof.Machine

/-- A step runs an instruction: `run = RUNNING` and `rst = 0` (40_sequencer.md R85). -/
abbrev State.ready (s : State) : Prop := s.run = .running ∧ s.pins.rst = false

/-- The state a fault leaves (60_exceptions.md R130): the record, `run`, and nothing else. -/
def State.faultedWith (s : State) (code : FaultCode) (kind : FaultKind) (info : BitVec 9) : State :=
  { s with run := .faulted, fault := { code := code, kind := kind, pc := s.pc, info := info } }

/-- The numbers of the registers an instruction may write (10_state.md R23, last column). -/
def regsWritten : Instr → List Nat
  | .hlt => []
  | .ret => [7]
  | .push _ => [7]
  | .pop r => [r.toNat, 7]
  | .prn _ => []
  | .call _ => [7]
  | .jmp _ => []
  | .jeq _ => []
  | .jne _ => []
  | .ldi r _ => [r.toNat]
  | .add a _ => [a.toNat]
  | .mul a _ => [a.toNat]
  | .cmp _ _ => []

/-- The address an instruction stores one byte to, if it stores (20_memory.md R47, R62). -/
def storeAddr (i : Instr) (s : State) : Option Nat :=
  match i with
  | .push _ => some (s.x[7] - 1).toNat
  | .call _ => some (s.x[7] - 1).toNat
  | .hlt => none
  | .ret => none
  | .pop _ => none
  | .prn _ => none
  | .jmp _ => none
  | .jeq _ => none
  | .jne _ => none
  | .ldi _ _ => none
  | .add _ _ => none
  | .mul _ _ => none
  | .cmp _ _ => none

/-- Every byte the fetch of the instruction `i` at `pc` reads is a cell (40_sequencer.md R85, with `w` operand bytes). -/
def State.fits (s : State) (i : Instr) : Prop :=
  s.pc.toNat + operandWindow s.params.fetchWindow i.op < 256

/-- The bytes at `n` addresses from `a` on. -/
def Memory.bytesAt (m : Memory) (a : Nat) : Nat → List Byte
  | 0 => []
  | n + 1 => m.read a :: Memory.bytesAt m (a + 1) n

/-- What holds in every state a run reaches: the memory is in its canonical form; `pc` is at most 256 (10_state.md R24);
the fault record is clear unless the core is FAULTED (R30); in FAULTED it names a fault the instruction set can reach, and
`fault_pc` is `pc` (60_exceptions.md R129, R131); while held in reset, the state is that of 10_state.md R40. -/
structure State.Inv (s : State) : Prop where
  mem_wf       : s.mem.wf
  pc_le        : s.pc.toNat ≤ 256
  record_clear : s.run ≠ .faulted → s.fault = FaultRecord.clear
  record_set   : s.run = .faulted →
    s.fault.pc = s.pc ∧
      (s.fault.code = .unknownOpcode ∧ s.fault.kind = .none ∨ s.fault.code = .outOfRange ∧ s.fault.kind ≠ .none)
  held         : s.run = .inReset →
    (∀ i : Fin 7, s.x[i.val] = 0) ∧ s.x[7] = s.params.spReset ∧ s.pc = 0 ∧ s.fl = false ∧ s.out = []

/-- The 8 binary digits of a byte, the most significant first (00_scope.md R9). -/
def binaryDigits (v : Byte) : List Char := (List.range 8).map fun k => if v.getLsbD (7 - k) then '1' else '0'

/-- A run has ended (60_exceptions.md R145). -/
abbrev State.ended (s : State) : Prop := s.run = .halted ∨ s.run = .faulted

/-- A run that has not met a fatal error (60_exceptions.md R125). -/
abbrev State.safe (s : State) : Prop := s.run ≠ .faulted

/-- The states a host can bring the core to from `State.reset`, driving the input ports as it likes (60_exceptions.md R144). -/
inductive Reachable : State → Prop where
  | reset : Reachable State.reset
  | clock {s t : State} (p : Pins) : Reachable s → Machine.clock p s = .next t → Reachable t

end Sys2Proof.Machine
end

