-- ==== Sys2Proof/Certificates/Slice0/Obligations.lean ====
section
/-! DEFINITION. The statements for the provers. A fault's numbers (`fault_code`, `fault_kind`, `fault_info`) are decision D9
of 92_eei_decisions.md, which 60_exceptions.md R126 gives. -/

open Sys2Proof Sys2Proof.Machine

/-! ### Reset, boot and the host -/

/-- The machine after reset: the values of the table of 10_state.md R40. -/
def Obligations.ResetStateValues : Prop :=
  (∀ i : Fin 7, State.reset.x[i.val] = 0#8) ∧ State.reset.x[7] = 0xF4#8 ∧ State.reset.pc = 0#9 ∧
  State.reset.fl = false ∧ State.reset.run = .running ∧
  State.reset.fault = { code := .none, kind := .none, pc := 0#9, info := 0#9 } ∧ State.reset.out = []

/-- While `rst = 1`, from any state: the values of 10_state.md R40, `status = 0`, no instruction, the load port honoured and
memory not written otherwise. When `rst` goes to 0, `run` becomes RUNNING and nothing else changes, so the first step
fetches at `pc = 0`. The port-level form is decision D16; that the release is a step of its own is the model's choice
(log entry 4). -/
def Obligations.ResetFromAnyState : Prop :=
  (∀ s : State, s.pins.rst = true → ∃ t, step s = .next t ∧
    (∀ i : Fin 7, t.x[i.val] = 0#8) ∧ t.x[7] = s.params.spReset ∧ t.pc = 0#9 ∧ t.fl = false ∧
    t.fault = { code := .none, kind := .none, pc := 0#9, info := 0#9 } ∧ t.out = [] ∧ t.run = .inReset ∧
    t.run.status = 0#2 ∧ t.params = s.params ∧ t.pins = s.pins ∧
    (s.pins.ldEn = false → t.mem = s.mem) ∧
    (s.pins.ldEn = true → s.mem.wf → t.mem.read s.pins.ldAddr.toNat = s.pins.ldData ∧
      ∀ a, a ≠ s.pins.ldAddr.toNat → t.mem.read a = s.mem.read a)) ∧
  (∀ s : State, s.pins.rst = false → s.run = .inReset → step s = .next { s with run := .running })

/-- With `rst = 0` the levels of the load port change nothing in what a step does, and no memory changes through them
(decision D16). -/
def Obligations.LoadPortIsIgnoredInARun : Prop :=
  ∀ (s : State) (en : Bool) (a v : Byte), s.pins.rst = false →
    ∃ t, step s = .next t ∧
      step { s with pins := { rst := false, ldEn := en, ldAddr := a, ldData := v } } =
        .next { t with pins := { rst := false, ldEn := en, ldAddr := a, ldData := v } }

/-- Booting, from any state whose memory is in its canonical form, with an image of at most 256 bytes: the core is RUNNING
with the values of 10_state.md R40, and each cell holds the byte of the image, or beyond the image what it held
before, which is `RAM_FILL` (decisions D12 to D14, D16). The steps it takes are the model's (log entries 4 and 12). -/
def Obligations.BootLoadsTheImageOnce : Prop :=
  ∀ (s : State) (image : List Byte), s.mem.wf → image.length ≤ 256 →
    ∃ t, runPins (bootPins (.ok image)) s = .next t ∧
      (∀ i : Fin 7, t.x[i.val] = 0#8) ∧ t.x[7] = s.params.spReset ∧ t.pc = 0#9 ∧ t.fl = false ∧ t.run = .running ∧
      t.fault = { code := .none, kind := .none, pc := 0#9, info := 0#9 } ∧ t.out = [] ∧ t.pins.rst = false ∧
      t.params = s.params ∧ t.mem.wf ∧
      ∀ a, a < 256 → t.mem.read a = image[a]?.getD (s.mem.read a)

/-- If the load is refused, `rst` is never released: the levels the host drives all have `rst = 1`, and however often it drives
them the core stays held in reset with the memory as it was; the exit status is not 0. -/
def Obligations.RefusedLoadExecutesNothing : Prop :=
  ∀ (src : Option (List Char)) (e : LoadError), loadProgram src = .error e →
    (∀ p ∈ bootPins (loadProgram src), p.rst = true) ∧
    (∀ (s : State) (n : Nat), ∃ t,
      runPins (bootPins (loadProgram src) ++ List.replicate n Pins.held) s = .next t ∧ t.run = .inReset ∧ t.mem = s.mem) ∧
    exitStatusAllowed (.loadRefused e) 0 = false

/-- What the host makes of one line (decision D15). It gives a byte exactly if it is the 8 binary digits of that byte, the most
significant first, with white space around them and perhaps a comment; it gives none exactly if nothing but white
space stands before its comment or end; any other line refuses the load. (Which characters are white space is the
model's choice, log entry 16.) -/
def Obligations.ProgramLineGivesItsByte : Prop :=
  ∀ line : List Char,
    (∀ v : Byte, parseLine line = .ok (some v) ↔ ∃ w₁ w₂ c : List Char, (∀ ch ∈ w₁ ++ w₂, ch.isWhitespace = true) ∧
      (line = w₁ ++ binaryDigits v ++ w₂ ∨ line = w₁ ++ binaryDigits v ++ w₂ ++ '#' :: c)) ∧
    (parseLine line = .ok none ↔ ∃ w c : List Char, (∀ ch ∈ w, ch.isWhitespace = true) ∧ (line = w ∨ line = w ++ '#' :: c)) ∧
    ((∀ b, parseLine line ≠ .ok b) → parseLine line = .error .badLine)

/-- Which loads are refused (60_exceptions.md R135; decisions D13, D15). A missing source is. A source with lines `lines` gives an image exactly
if every line is accepted and they give at most 256 bytes, and the image is those bytes in line order; one bad line
refuses the load, and so do more than 256 bytes. (That lines end at line feeds is the model's choice, log entry 16. The
statement does not say which error a source with both defects gives, log entry 20.) -/
def Obligations.SourceGivesItsImageOrIsRefused : Prop :=
  loadProgram none = .error .programNotFound ∧
  ∀ lines : List (List Char), lines ≠ [] → (∀ l ∈ lines, '\n' ∉ l) →
    (∀ image : List Byte, loadProgram (some (['\n'].intercalate lines)) = .ok image ↔
      ∃ bs : List (Option Byte), lines.map parseLine = bs.map .ok ∧ image = bs.filterMap id ∧ image.length ≤ 256) ∧
    ((∃ l ∈ lines, ∃ e, parseLine l = .error e) →
      ∃ e, loadProgram (some (['\n'].intercalate lines)) = .error e ∧ e ≠ .programNotFound) ∧
    (∀ bs : List (Option Byte), lines.map parseLine = bs.map .ok → 256 < (bs.filterMap id).length →
      loadProgram (some (['\n'].intercalate lines)) = .error .tooLong)

/-! ### Decode and encode -/

/-- Words written out from the encodings of 30_encoding.md R64 and R67 decode to their instructions. -/
def Obligations.SpecWordsDecode : Prop :=
  decode [0b00000001#8] = .ok (.hlt, []) ∧
  decode [0b10000010#8, 0b00000000#8, 0b00001000#8] = .ok (.ldi 0 8, []) ∧
  decode [0b01000111#8, 0b00000000#8] = .ok (.prn 0, []) ∧
  decode [0b10100000#8, 0b00000010#8, 0b00000101#8] = .ok (.add 2 5, []) ∧
  decode [0b01010000#8, 0b00000001#8] = .ok (.call 1, []) ∧
  decode [0b01000110#8, 0b00000111#8] = .ok (.pop 7, [])

/-- Decoding is exactly the inverse of encoding: a list of bytes decodes to an instruction and a rest if and only if it is the
encoding of that instruction followed by that rest. So no two instructions share a word, no bit of an operand is
dropped, and the length is that of the opcode (30_encoding.md R63, R64, R72). -/
def Obligations.DecodeIsInverseOfEncode : Prop :=
  ∀ (bs rest : List Byte) (i : Instr), decode bs = .ok (i, rest) ↔ bs = encode i ++ rest

/-- A step that is ready runs the instruction that the bytes at `pc` decode to, if the bytes the fetch reads are all
cells. -/
def Obligations.StepRunsTheDecodedInstruction : Prop :=
  ∀ (s : State) (i : Instr) (n : Nat) (rest : List Byte), s.ready →
    decode (s.mem.bytesAt s.pc.toNat n) = .ok (i, rest) → s.fits i → step s = exec i s

/-! ### The checks of a step -/

/-- The checks before CHECK, in order (40_sequencer.md R85): `pc` of 256 or more; then an opcode byte outside the map; then the first
operand address of 256 or more, in ascending order, with as many operand bytes as `FETCH_WINDOW` says. The order is decision
D10, the window decision D3. -/
def Obligations.StepChecksInOrder : Prop :=
  ∀ s : State, s.ready →
    (256 ≤ s.pc.toNat → step s = .next (s.faultedWith .outOfRange .memoryAddress s.pc)) ∧
    (s.pc.toNat < 256 → decodeOpcode (s.mem.read s.pc.toNat) = none →
      step s = .next (s.faultedWith .unknownOpcode .none ((s.mem.read s.pc.toNat).setWidth 9))) ∧
    (∀ o k, s.pc.toNat < 256 → decodeOpcode (s.mem.read s.pc.toNat) = some o →
      1 ≤ k → k ≤ (if s.params.fetchWindow = .always3 then 2 else o.nops) →
      256 ≤ s.pc.toNat + k → (∀ j, 1 ≤ j → j < k → s.pc.toNat + j < 256) →
      step s = .next (s.faultedWith .outOfRange .memoryAddress (BitVec.ofNat 9 (s.pc.toNat + k))))

/-- Every byte outside the 13 opcodes is illegal: it decodes to nothing, and fetching it raises UnknownOpcode with the byte and
`pc` in the fault record, whatever stands after it. Each of the 13 decodes. -/
def Obligations.OpcodesOutsideTheMapFault : Prop :=
  ∀ b : Byte,
    (b.toNat ∉ [1, 17, 69, 70, 71, 80, 84, 85, 86, 130, 160, 162, 167] →
      (∀ rest, decode (b :: rest) = .error (.unknownOpcode b)) ∧
      ∀ s : State, s.ready → s.pc.toNat < 256 → s.mem.read s.pc.toNat = b →
        step s = .next (s.faultedWith .unknownOpcode .none (b.setWidth 9))) ∧
    (b.toNat ∈ [1, 17, 69, 70, 71, 80, 84, 85, 86, 130, 160, 162, 167] →
      ∀ b1 b2 : Byte, ∃ i rest, decode [b, b1, b2] = .ok (i, rest) ∧ i.op.code = b)

/-- With `FETCH_WINDOW = always3`, every instruction at `pc` 254 or 255 faults on the memory address 256, whatever its length
(40_sequencer.md R85, 90_conflicts.md C9). -/
def Obligations.Always3WindowFaultsNearTheEnd : Prop :=
  ∀ (s : State) (o : Op), s.ready → s.params.fetchWindow = .always3 → 254 ≤ s.pc.toNat → s.pc.toNat < 256 →
    decodeOpcode (s.mem.read s.pc.toNat) = some o →
    step s = .next (s.faultedWith .outOfRange .memoryAddress 256#9)

/-- A register-operand byte of 8 or more faults, in every instruction that has one, the first such byte in ascending order; it is
not masked to its low bits. -/
def Obligations.IllegalRegisterOperandFaults : Prop :=
  ∀ (i : Instr) (s : State) (b : Byte), i.regBytes.find? (fun r => 8 ≤ r.toNat) = some b →
    exec i s = .next (s.faultedWith .outOfRange .registerIndex (b.setWidth 9))

/-- Once its checks pass, an instruction commits and faults no more: the fault record stays, and `run` stays unless the
instruction is HLT. (40_sequencer.md R88; that all checks come first is decision D4, and the check of CALL's return address D6.) -/
def Obligations.CheckedInstructionsCommit : Prop :=
  ∀ (i : Instr) (s : State), i.wf = true → ((∃ r, i = .call r) → s.pc.toNat + 2 < 256) →
    ∃ t, exec i s = .next t ∧ t.fault = s.fault ∧ t.run = if i = .hlt then .halted else s.run

/-! ### Invariants and rules of the whole machine -/

/-- The invariant holds after reset. (The memory that lists nothing is the model's choice, log entry 6.) -/
def Obligations.ResetStateMeetsInvariant : Prop := State.reset.Inv

/-- Every step from a state that meets the invariant ends in one that does, at any levels of the input ports: the memory stays in
its canonical form, `pc` stays at most 256, the fault record is clear exactly while the core has not faulted, in FAULTED it
names a reachable fault at `pc`, and a core held in reset has the values of 10_state.md R40. -/
def Obligations.EveryStepKeepsInvariant : Prop :=
  ∀ (s t : State), s.Inv → step s = .next t → t.Inv

/-- Every state a host can bring the core to from reset, driving the input ports as it likes, meets the invariant, and its fault
record is clear exactly if no fatal error has happened. -/
def Obligations.ReachableStatesMeetInvariant : Prop :=
  ∀ s : State, Reachable s → s.Inv ∧ (s.safe ↔ s.fault.code = .none)

/-- A step always answers a next state: the model stops nowhere with a fault or a refusal of its own (log entry 1). -/
def Obligations.EveryStepAnswersANextState : Prop :=
  ∀ s : State, ∃ t, step s = .next t

/-- The transitions of the execution loop (40_sequencer.md R83). Only HLT enters HALTED, only a failing check enters FAULTED, and
every other step of a running core leaves it RUNNING. -/
def Obligations.RunStateTransitions : Prop :=
  ∀ s t : State, step s = .next t →
    (s.pins.rst = true → t.run = .inReset) ∧
    (s.pins.rst = false → s.run = .inReset → t.run = .running) ∧
    (s.pins.rst = false → s.run = .running →
      t.run = .running ∨
      (t = { s with run := .halted } ∧ s.mem.read s.pc.toNat = 0x01#8) ∨
      (∃ code kind info, code ≠ .none ∧ t = s.faultedWith code kind info)) ∧
    (s.pins.rst = false → s.run = .halted → t.run = .halted) ∧
    (s.pins.rst = false → s.run = .faulted → t.run = .faulted)

/-- In HALTED and FAULTED there is no step: with `rst = 0` nothing changes and the output port makes no transfer, and only `rst = 1`
leaves these states. (The rows of 40_sequencer.md R83 for HALTED and FAULTED. That a step there answers the same state, and
that `out_valid` is read off two states, are the model's, log entries 5 and 18.) -/
def Obligations.HaltedAndFaultedHaveNoStep : Prop :=
  ∀ s : State, s.ended →
    (s.pins.rst = false → step s = .next s ∧ outValid s s = false) ∧
    (∀ t, step s = .next t → t.run ≠ s.run → s.pins.rst = true)

/-- Faults are precise: when a step of a running core ends in FAULTED, registers, `pc`, `fl`, memory and `out` are those before
the step, and `fault_pc` is `pc`. -/
def Obligations.FaultsArePrecise : Prop :=
  ∀ s t : State, s.ready → step s = .next t → t.run = .faulted →
    t.x = s.x ∧ t.pc = s.pc ∧ t.fl = s.fl ∧ t.mem = s.mem ∧ t.out = s.out ∧ t.fault.pc = t.pc

/-- The fault record changes with `rst = 0` only on the step from RUNNING into FAULTED, and it then names a fault; a reset clears it
(10_state.md R30, which the spec derives). -/
def Obligations.FaultRecordIsWrittenOnce : Prop :=
  ∀ s t : State, step s = .next t →
    (s.pins.rst = false → t.fault ≠ s.fault → s.run = .running ∧ t.run = .faulted) ∧
    (s.ready → t.run = .faulted → t.fault.code ≠ .none) ∧
    (s.pins.rst = true → t.fault = { code := .none, kind := .none, pc := 0#9, info := 0#9 })

/-- No step records UnsupportedALUOperation: where the record holds that code after a step, it held the same record before, and no
running core has faulted (60_exceptions.md R129, 41_alu.md R105: unreachable). -/
def Obligations.UnsupportedAluOperationIsNeverRaised : Prop :=
  ∀ s t : State, step s = .next t → t.fault.code = .unsupportedAluOp →
    t.fault = s.fault ∧ (s.ready → t.run ≠ .faulted)

/-- Only CMP writes `fl`, and on every execution, to whether the two registers are equal; only JEQ and JNE read it: what any
other instruction does is the same whatever it holds; reset clears it. -/
def Obligations.OnlyCmpWritesTheFlag : Prop :=
  (∀ (i : Instr) (s t : State), exec i s = .next t → (∀ a b, i ≠ .cmp a b) → t.fl = s.fl) ∧
  (∀ (a b : Byte) (s : State) (ha : a.toNat < 8) (hb : b.toNat < 8), ∃ t, exec (.cmp a b) s = .next t ∧
    (t.fl = true ↔ s.x[a.toNat] = s.x[b.toNat])) ∧
  (∀ (i : Instr) (s t : State) (f : Bool), exec i s = .next t → (∀ r, i ≠ .jeq r) → (∀ r, i ≠ .jne r) →
    ∃ u, exec i { s with fl := f } = .next u ∧ { u with fl := false } = { t with fl := false }) ∧
  (∀ (s t : State), step s = .next t → s.run ≠ .running → s.pins.rst = false → t.fl = s.fl) ∧
  (∀ (s t : State), step s = .next t → s.pins.rst = true → t.fl = false)

/-- Only PRN changes the output stream, by appending the byte it outputs; nothing reads it back: what a step does to the rest of
the state is the same whatever `out` holds; reset empties it. -/
def Obligations.OnlyPrnAppendsToTheOutput : Prop :=
  (∀ (i : Instr) (s t : State), exec i s = .next t → (∀ r, i ≠ .prn r) → t.out = s.out) ∧
  (∀ (r : Byte) (s : State) (hr : r.toNat < 8), ∃ t, exec (.prn r) s = .next t ∧ t.out = s.out ++ [s.x[r.toNat]]) ∧
  (∀ (s t : State) (o : List Byte), s.pins.rst = false → step s = .next t →
    step { s with out := o } = .next { t with out := o ++ t.out.drop s.out.length }) ∧
  (∀ s t : State, s.pins.rst = true → step s = .next t → t.out = [])

/-- No instruction changes a register but those the table of 10_state.md R23 lists for it (the spec derives the table). -/
def Obligations.RegistersChangeOnlyAsTheTableSays : Prop :=
  ∀ (i : Instr) (s t : State), exec i s = .next t →
    ∀ k : Fin 8, k.val ∉ regsWritten i → t.x[k.val] = s.x[k.val]

/-- No instruction changes a byte of memory, but PUSH and CALL the one below the stack pointer (20_memory.md R47, R62). -/
def Obligations.MemoryChangesOnlyWherePushedTo : Prop :=
  ∀ (i : Instr) (s t : State), s.mem.wf → exec i s = .next t →
    ∀ a, storeAddr i s ≠ some a → t.mem.read a = s.mem.read a

/-- What an instruction leaves of the rest of the state: `fl` unless it is CMP, `out` unless it is PRN, `run` unless it is HLT or it
faults, the fault record unless it faults, `pc` when it faults, and always the run's parameters and the input ports. -/
def Obligations.InstructionsLeaveTheRest : Prop :=
  ∀ (i : Instr) (s t : State), exec i s = .next t →
    ((∀ a b, i ≠ .cmp a b) → t.fl = s.fl) ∧
    ((∀ r, i ≠ .prn r) → t.out = s.out) ∧
    ((t.run = s.run ∧ t.fault = s.fault) ∨ (i = .hlt ∧ t = { s with run := .halted }) ∨
      ∃ kind info, t = s.faultedWith .outOfRange kind info) ∧
    t.params = s.params ∧ t.pins = s.pins

/-- The parameters of a run do not change, and no step drives the input ports (10_state.md R35; holding both in the state is the
model's choice, log entries 3 and 7). -/
def Obligations.ParametersNeverChange : Prop :=
  ∀ s t : State, step s = .next t → t.params = s.params ∧ t.pins = s.pins

/-- A read gives the most recent write to its address, or what the memory held before the writes. -/
def Obligations.ReadGivesTheMostRecentWrite : Prop :=
  ∀ (m : Memory) (ws : List (Byte × Byte)) (a : Nat), m.wf →
    (ws.foldl (fun m w => m.write w.1.toNat w.2) m).read a =
      ((ws.reverse.find? fun w => w.1.toNat == a).map (·.2)).getD (m.read a)

/-- Fetch is coherent with data writes (20_memory.md R60, which the spec derives): the byte that a PUSH or CALL writes to cell `a` is what every
later fetch reads there. `u` is any later state whose cell `a` still holds it, the state right after among them. Fetched
as an opcode, the byte decides the step of `u`: a fault if it is no opcode, a fault if its operands run past the memory,
else the instruction it names, with the bytes after it. Fetched as an operand, it is that operand. CALL R7 jumps to the
cell it wrote, so the return address is the next opcode (43_control_transfer.md R117). -/
def Obligations.FetchSeesThePushedByte : Prop :=
  ∀ (s t u : State) (i : Instr) (r v : Byte) (a : Nat) (hr : r.toNat < 8), s.ready → s.mem.wf →
    (i = .push r ∧ v = (if r.toNat = 7 then s.x[7] - 1 else s.x[r.toNat])) ∨
      (i = .call r ∧ s.pc.toNat + 2 < 256 ∧ v = BitVec.ofNat 8 (s.pc.toNat + 2)) →
    storeAddr i s = some a → exec i s = .next t → u.ready → u.mem.read a = t.mem.read a →
    (u.pc.toNat = a →
      (decodeOpcode v = none → step u = .next (u.faultedWith .unknownOpcode .none (v.setWidth 9))) ∧
      ∀ o, decodeOpcode v = some o → step u =
        if a + (if u.params.fetchWindow = .always3 then 2 else o.nops) < 256 then
          exec (assemble o (u.mem.read (a + 1)) (u.mem.read (a + 2))) u
        else .next (u.faultedWith .outOfRange .memoryAddress 256#9)) ∧
    (∀ o k, decodeOpcode (u.mem.read u.pc.toNat) = some o → 1 ≤ k → k ≤ o.nops → u.pc.toNat + k = a →
      u.pc.toNat + (if u.params.fetchWindow = .always3 then 2 else o.nops) < 256 →
      ∃ j, step u = exec j u ∧ j.op = o ∧ (encode j)[k]? = some v) ∧
    (i = .call 7 → t.ready ∧ t.pc.toNat = a)

/-! ### The instructions

Each statement gives the encoding, the effect as an equation for the whole next state (so that everything not named is
unchanged), and the exceptions. Memory-address faults are those of `FETCH_WINDOW = exact` (41_alu.md, introduction). -/

/-- ADD (41_alu.md R106). -/
def Obligations.AddRule : Prop :=
  ∀ (s : State) (a b : Byte),
    encode (.add a b) = [0xA0#8, a, b] ∧
    (∀ (ha : a.toNat < 8) (hb : b.toNat < 8), exec (.add a b) s = .next { s with
      x := s.x.set a.toNat (BitVec.ofNat 8 (s.x[a.toNat].toNat + s.x[b.toNat].toNat)), pc := s.pc + 3#9 }) ∧
    (8 ≤ a.toNat → exec (.add a b) s = .next (s.faultedWith .outOfRange .registerIndex (a.setWidth 9))) ∧
    (a.toNat < 8 → 8 ≤ b.toNat →
      exec (.add a b) s = .next (s.faultedWith .outOfRange .registerIndex (b.setWidth 9))) ∧
    (s.ready → 254 ≤ s.pc.toNat → s.pc.toNat < 256 → s.mem.read s.pc.toNat = 0xA0#8 →
      step s = .next (s.faultedWith .outOfRange .memoryAddress 256#9))

/-- MUL (41_alu.md R107). -/
def Obligations.MulRule : Prop :=
  ∀ (s : State) (a b : Byte),
    encode (.mul a b) = [0xA2#8, a, b] ∧
    (∀ (ha : a.toNat < 8) (hb : b.toNat < 8), exec (.mul a b) s = .next { s with
      x := s.x.set a.toNat (BitVec.ofNat 8 (s.x[a.toNat].toNat * s.x[b.toNat].toNat)), pc := s.pc + 3#9 }) ∧
    (8 ≤ a.toNat → exec (.mul a b) s = .next (s.faultedWith .outOfRange .registerIndex (a.setWidth 9))) ∧
    (a.toNat < 8 → 8 ≤ b.toNat →
      exec (.mul a b) s = .next (s.faultedWith .outOfRange .registerIndex (b.setWidth 9))) ∧
    (s.ready → 254 ≤ s.pc.toNat → s.pc.toNat < 256 → s.mem.read s.pc.toNat = 0xA2#8 →
      step s = .next (s.faultedWith .outOfRange .memoryAddress 256#9))

/-- CMP (41_alu.md R108). -/
def Obligations.CmpRule : Prop :=
  ∀ (s : State) (a b : Byte),
    encode (.cmp a b) = [0xA7#8, a, b] ∧
    (∀ (ha : a.toNat < 8) (hb : b.toNat < 8), exec (.cmp a b) s = .next { s with
      fl := if s.x[a.toNat] = s.x[b.toNat] then true else false, pc := s.pc + 3#9 }) ∧
    (8 ≤ a.toNat → exec (.cmp a b) s = .next (s.faultedWith .outOfRange .registerIndex (a.setWidth 9))) ∧
    (a.toNat < 8 → 8 ≤ b.toNat →
      exec (.cmp a b) s = .next (s.faultedWith .outOfRange .registerIndex (b.setWidth 9))) ∧
    (s.ready → 254 ≤ s.pc.toNat → s.pc.toNat < 256 → s.mem.read s.pc.toNat = 0xA7#8 →
      step s = .next (s.faultedWith .outOfRange .memoryAddress 256#9))

/-- LDI (42_register_and_stack.md R110): any immediate, never checked. -/
def Obligations.LdiRule : Prop :=
  ∀ (s : State) (r imm : Byte),
    encode (.ldi r imm) = [0x82#8, r, imm] ∧
    (∀ hr : r.toNat < 8, exec (.ldi r imm) s = .next { s with x := s.x.set r.toNat imm, pc := s.pc + 3#9 }) ∧
    (8 ≤ r.toNat → exec (.ldi r imm) s = .next (s.faultedWith .outOfRange .registerIndex (r.setWidth 9))) ∧
    (s.ready → 254 ≤ s.pc.toNat → s.pc.toNat < 256 → s.mem.read s.pc.toNat = 0x82#8 →
      step s = .next (s.faultedWith .outOfRange .memoryAddress 256#9))

/-- PUSH (42_register_and_stack.md R111): the byte stored is `x[r]` read after the decrement, and it is stored where the decremented
stack pointer points; every other byte of memory is unchanged. -/
def Obligations.PushRule : Prop :=
  ∀ (s : State) (r : Byte),
    encode (.push r) = [0x45#8, r] ∧
    (∀ hr : r.toNat < 8, s.mem.wf → ∃ t, exec (.push r) s = .next t ∧
      t = { s with x := s.x.set 7 (s.x[7] - 1#8), mem := t.mem, pc := s.pc + 2#9 } ∧
      t.mem.read (s.x[7] - 1#8).toNat = (s.x.set 7 (s.x[7] - 1#8))[r.toNat] ∧
      ∀ a, a ≠ (s.x[7] - 1#8).toNat → t.mem.read a = s.mem.read a) ∧
    (8 ≤ r.toNat → exec (.push r) s = .next (s.faultedWith .outOfRange .registerIndex (r.setWidth 9))) ∧
    (s.ready → s.params.fetchWindow = .exactWindow → s.pc.toNat = 255 → s.mem.read s.pc.toNat = 0x45#8 →
      step s = .next (s.faultedWith .outOfRange .memoryAddress 256#9))

/-- POP (42_register_and_stack.md R112): `x[r]` is written first, then the stack pointer, as that write left it, is incremented; no
byte of memory changes. -/
def Obligations.PopRule : Prop :=
  ∀ (s : State) (r : Byte),
    encode (.pop r) = [0x46#8, r] ∧
    (∀ hr : r.toNat < 8, exec (.pop r) s = .next { s with
      x := (s.x.set r.toNat (s.mem.read s.x[7].toNat)).set 7 ((s.x.set r.toNat (s.mem.read s.x[7].toNat))[7] + 1#8)
      pc := s.pc + 2#9 }) ∧
    (8 ≤ r.toNat → exec (.pop r) s = .next (s.faultedWith .outOfRange .registerIndex (r.setWidth 9))) ∧
    (s.ready → s.params.fetchWindow = .exactWindow → s.pc.toNat = 255 → s.mem.read s.pc.toNat = 0x46#8 →
      step s = .next (s.faultedWith .outOfRange .memoryAddress 256#9))

/-- PUSH and then POP of the same register, R7 among them, restores every register; the cell keeps the pushed byte
(42_register_and_stack.md R112, corner cases). -/
def Obligations.PushThenPopRestores : Prop :=
  ∀ (s : State) (r : Byte) (hr : r.toNat < 8), s.mem.wf →
    ∃ t u, exec (.push r) s = .next t ∧ exec (.pop r) t = .next u ∧ u.x = s.x ∧ u.mem = t.mem ∧
      u.mem.read (s.x[7] - 1#8).toNat = if r.toNat = 7 then s.x[7] - 1#8 else s.x[r.toNat]

/-- JMP (43_control_transfer.md R114). -/
def Obligations.JmpRule : Prop :=
  ∀ (s : State) (r : Byte),
    encode (.jmp r) = [0x54#8, r] ∧
    (∀ hr : r.toNat < 8, exec (.jmp r) s = .next { s with pc := s.x[r.toNat].setWidth 9 }) ∧
    (8 ≤ r.toNat → exec (.jmp r) s = .next (s.faultedWith .outOfRange .registerIndex (r.setWidth 9))) ∧
    (s.ready → s.params.fetchWindow = .exactWindow → s.pc.toNat = 255 → s.mem.read s.pc.toNat = 0x54#8 →
      step s = .next (s.faultedWith .outOfRange .memoryAddress 256#9))

/-- JEQ (43_control_transfer.md R115): the register operand is checked whether or not the jump is taken. -/
def Obligations.JeqRule : Prop :=
  ∀ (s : State) (r : Byte),
    encode (.jeq r) = [0x55#8, r] ∧
    (∀ hr : r.toNat < 8, exec (.jeq r) s = .next { s with
      pc := if s.fl = true then s.x[r.toNat].setWidth 9 else s.pc + 2#9 }) ∧
    (8 ≤ r.toNat → exec (.jeq r) s = .next (s.faultedWith .outOfRange .registerIndex (r.setWidth 9))) ∧
    (s.ready → s.params.fetchWindow = .exactWindow → s.pc.toNat = 255 → s.mem.read s.pc.toNat = 0x55#8 →
      step s = .next (s.faultedWith .outOfRange .memoryAddress 256#9))

/-- JNE (43_control_transfer.md R116): the register operand is checked whether or not the jump is taken. Whatever `fl`
holds, exactly one of JEQ and JNE jumps. -/
def Obligations.JneRule : Prop :=
  ∀ (s : State) (r : Byte),
    encode (.jne r) = [0x56#8, r] ∧
    (∀ hr : r.toNat < 8, exec (.jne r) s = .next { s with
      pc := if s.fl = false then s.x[r.toNat].setWidth 9 else s.pc + 2#9 }) ∧
    (∀ hr : r.toNat < 8,
      let jumps : State := { s with pc := s.x[r.toNat].setWidth 9 }
      let falls : State := { s with pc := s.pc + 2#9 }
      (s.fl = true → exec (.jeq r) s = .next jumps ∧ exec (.jne r) s = .next falls) ∧
      (s.fl = false → exec (.jeq r) s = .next falls ∧ exec (.jne r) s = .next jumps)) ∧
    (8 ≤ r.toNat → exec (.jne r) s = .next (s.faultedWith .outOfRange .registerIndex (r.setWidth 9))) ∧
    (s.ready → s.params.fetchWindow = .exactWindow → s.pc.toNat = 255 → s.mem.read s.pc.toNat = 0x56#8 →
      step s = .next (s.faultedWith .outOfRange .memoryAddress 256#9))

/-- CALL (43_control_transfer.md, R117). The fault on a return address of 256 is decision D6, not the source's. -/
def Obligations.CallPushesAndJumps : Prop :=
  ∀ (s : State) (r : Byte),
    encode (.call r) = [0x50#8, r] ∧
    (∀ hr : r.toNat < 8, s.mem.wf → s.pc.toNat + 2 < 256 → ∃ t, exec (.call r) s = .next t ∧
      t = { s with
        x := s.x.set 7 (s.x[7] - 1#8), mem := t.mem
        pc := (s.x.set 7 (s.x[7] - 1#8))[r.toNat].setWidth 9 } ∧
      t.mem.read (s.x[7] - 1#8).toNat = BitVec.ofNat 8 (s.pc.toNat + 2) ∧
      ∀ a, a ≠ (s.x[7] - 1#8).toNat → t.mem.read a = s.mem.read a) ∧
    (8 ≤ r.toNat → exec (.call r) s = .next (s.faultedWith .outOfRange .registerIndex (r.setWidth 9))) ∧
    (r.toNat < 8 → s.pc.toNat = 254 → exec (.call r) s = .next (s.faultedWith .outOfRange .returnAddress 256#9)) ∧
    (s.ready → s.params.fetchWindow = .exactWindow → s.pc.toNat = 255 → s.mem.read s.pc.toNat = 0x50#8 →
      step s = .next (s.faultedWith .outOfRange .memoryAddress 256#9))

/-- RET (43_control_transfer.md R118): no byte of memory changes, and under `FETCH_WINDOW = exact` it runs wherever it can be
fetched. -/
def Obligations.RetRule : Prop :=
  ∀ s : State,
    encode .ret = [0x11#8] ∧
    exec .ret s = .next { s with
      pc := (s.mem.read s.x[7].toNat).setWidth 9, x := s.x.set 7 (s.x[7] + 1#8) } ∧
    (s.ready → s.params.fetchWindow = .exactWindow → s.pc.toNat < 256 → s.mem.read s.pc.toNat = 0x11#8 →
      step s = exec .ret s) ∧
    (s.ready → s.params.fetchWindow = .always3 → 254 ≤ s.pc.toNat → s.pc.toNat < 256 →
      s.mem.read s.pc.toNat = 0x11#8 → step s = .next (s.faultedWith .outOfRange .memoryAddress 256#9)) ∧
    (s.ready → s.pc.toNat = 256 → step s = .next (s.faultedWith .outOfRange .memoryAddress 256#9))

/-- CALL and then RET, with nothing between that changes the stack pointer or the pushed cell, returns to the address after the
CALL and restores every register (43_control_transfer.md R118, corner cases). The state `v` between them may differ
from the one the CALL leaves in `pc`, in every register but the stack pointer, in flags, output and every other cell. -/
def Obligations.CallThenRetReturns : Prop :=
  ∀ (s : State) (r : Byte) (_ : r.toNat < 8), s.mem.wf → s.pc.toNat + 2 < 256 →
    ∃ t, exec (.call r) s = .next t ∧
      ∀ v : State, v.x[7] = t.x[7] → v.mem.read t.x[7].toNat = t.mem.read t.x[7].toNat →
        ∃ u, exec .ret v = .next u ∧ u.pc.toNat = s.pc.toNat + 2 ∧ u.x[7] = s.x[7] ∧
          ∀ k : Fin 7, u.x[k.val] = v.x[k.val]

/-- HLT (44_system.md). That `pc` stays at the HLT byte is decision D11, not the source's. HLT is the only instruction
that enters HALTED, and after it the core has no step (a step answers the same state, log entry 5). -/
def Obligations.HltStopsTheCore : Prop :=
  ∀ s : State,
    encode .hlt = [0x01#8] ∧
    exec .hlt s = .next { s with run := .halted } ∧
    (s.ready → s.params.fetchWindow = .exactWindow → s.pc.toNat < 256 → s.mem.read s.pc.toNat = 0x01#8 →
      step s = .next { s with run := .halted }) ∧
    (s.pins.rst = false → step { s with run := .halted } = .next { s with run := .halted }) ∧
    (∀ i t, exec i s = .next t → s.run ≠ .halted → t.run = .halted → i = .hlt)

/-- PRN (44_system.md R122): the byte goes out unchanged, in one transfer on the output port. -/
def Obligations.PrnRule : Prop :=
  ∀ (s : State) (r : Byte),
    encode (.prn r) = [0x47#8, r] ∧
    (∀ hr : r.toNat < 8, ∃ t, exec (.prn r) s = .next t ∧
      t = { s with out := s.out ++ [s.x[r.toNat]], pc := s.pc + 2#9 } ∧
      (ports s t).outValid = true ∧ (ports s t).outData = s.x[r.toNat]) ∧
    (8 ≤ r.toNat → exec (.prn r) s = .next (s.faultedWith .outOfRange .registerIndex (r.setWidth 9))) ∧
    (s.ready → s.params.fetchWindow = .exactWindow → s.pc.toNat = 255 → s.mem.read s.pc.toNat = 0x47#8 →
      step s = .next (s.faultedWith .outOfRange .memoryAddress 256#9))
end

