-- ==== Sys2Proof/Laws/Boot.lean ====
section
/-! SUPPORT. What the host reads from a program source: the shape of the lines that are accepted, and the image of a source. -/

namespace Sys2Proof.Machine

/-! ### White space and digits -/

theorem isWhitespace_hash : Char.isWhitespace '#' = false := by decide

theorem ne_hash_of_ws {w : List Char} (h : ∀ c ∈ w, c.isWhitespace = true) : ∀ c ∈ w, c ≠ '#' := by
  rintro c hc rfl
  exact absurd (h _ hc) (by simp [isWhitespace_hash])

theorem binaryDigits_chars (v : Byte) : ∀ c ∈ binaryDigits v, c = '0' ∨ c = '1' := by
  intro c hc
  obtain ⟨k, -, rfl⟩ := List.mem_map.1 hc
  split <;> simp

@[simp] theorem binaryDigits_length (v : Byte) : (binaryDigits v).length = 8 := by simp [binaryDigits]

/-- A byte is the value of its digits. -/
@[simp] theorem bitsValue_binaryDigits : ∀ v : Byte, bitsValue 0 (binaryDigits v) = some v.toNat := by decide

/-- Eight binary digits are the digits of a byte. -/
theorem exists_binaryDigits {cs : List Char} (hl : cs.length = 8) (h : ∀ c ∈ cs, c = '0' ∨ c = '1') :
    ∃ v, cs = binaryDigits v := by
  have all : ∀ a b c d e f g i : Bool, [a, b, c, d, e, f, g, i].map (fun x => if x then '1' else '0') =
      binaryDigits (BitVec.ofNat 8 ([a, b, c, d, e, f, g, i].foldl (fun n x => 2 * n + x.toNat) 0)) := by decide
  have back : cs = cs.map fun c => if c == '1' then '1' else '0' :=
    (List.map_id cs).symm.trans (List.map_congr_left fun c hc => by rcases h c hc with rfl | rfl <;> rfl)
  match cs, hl, back with
  | [a, b, c, d, e, f, g, i], _, back =>
    exact ⟨_, back.trans (all (a == '1') (b == '1') (c == '1') (d == '1') (e == '1') (f == '1') (g == '1') (i == '1'))⟩

/-- Only binary digits have a value. -/
theorem bitsValue_chars {acc v : Nat} {cs : List Char} (h : bitsValue acc cs = some v) : ∀ c ∈ cs, c = '0' ∨ c = '1' := by
  induction cs generalizing acc with
  | nil => simp
  | cons c cs ih =>
    simp only [bitsValue] at h
    split at h
    · cases h
    · next d hd =>
      have hc : c = '0' ∨ c = '1' := by
        unfold bitOf at hd
        split at hd <;> simp at hd ⊢
      exact fun d hd => (List.mem_cons.1 hd).elim (fun e => e ▸ hc) (ih h d)

/-! ### Trimming -/

theorem dropWhile_ws_append {w x : List Char} (h : ∀ c ∈ w, c.isWhitespace = true) :
    (w ++ x).dropWhile Char.isWhitespace = x.dropWhile Char.isWhitespace := by
  induction w with
  | nil => rfl
  | cons c w ih => simp only [List.forall_mem_cons] at h; simp [h.1, ih h.2]

/-- Text whose first character is no white space is not trimmed in front. -/
theorem dropWhile_ws_eq_self {x : List Char} (h : ∀ c ∈ x.head?, c.isWhitespace = false) :
    x.dropWhile Char.isWhitespace = x := by
  cases x with
  | nil => rfl
  | cons c x => simp at h; simp [h]

/-- A line is its text before the first `#`, and then nothing or a comment. -/
theorem line_eq (line : List Char) :
    line = line.takeWhile (· != '#') ∨ ∃ c, line = line.takeWhile (· != '#') ++ '#' :: c := by
  induction line with
  | nil => exact .inl rfl
  | cons d line ih =>
    by_cases hd : d = '#'
    · subst hd; exact .inr ⟨line, rfl⟩
    · simp only [List.takeWhile_cons, bne_iff_ne, ne_eq, hd, not_false_eq_true, if_true, List.cons_append, List.cons.injEq, true_and]
      exact ih

theorem takeWhile_text {x : List Char} (h : ∀ c ∈ x, c ≠ '#') : x.takeWhile (· != '#') = x := by
  rw [List.takeWhile_eq_self_iff]; simpa using h

theorem takeWhile_comment {x : List Char} (c : List Char) (h : ∀ c ∈ x, c ≠ '#') :
    (x ++ '#' :: c).takeWhile (· != '#') = x := by
  rw [List.takeWhile_append_of_pos (by simpa using h)]; simp

/-- Trimming takes white space off both ends: `preComment line` is what stands between it. -/
theorem preComment_between (line : List Char) : ∃ w₁ w₂, (∀ c ∈ w₁ ++ w₂, c.isWhitespace = true) ∧
    line.takeWhile (· != '#') = w₁ ++ preComment line ++ w₂ := by
  generalize ht : line.takeWhile (· != '#') = t
  refine ⟨t.takeWhile Char.isWhitespace, ((t.dropWhile Char.isWhitespace).reverse.takeWhile Char.isWhitespace).reverse, ?_, ?_⟩
  · intro c hc
    rcases List.mem_append.1 hc with hc | hc
    · exact List.mem_takeWhile_imp hc
    · exact List.mem_takeWhile_imp (List.mem_reverse.1 hc)
  · rw [preComment, ht, List.append_assoc, ← List.reverse_append, List.takeWhile_append_dropWhile, List.reverse_reverse,
      List.takeWhile_append_dropWhile]

/-- White space around a text of digits is trimmed. -/
theorem trim_between {w₁ w₂ d : List Char} (h : ∀ c ∈ w₁ ++ w₂, c.isWhitespace = true) (hd : ∀ c ∈ d, c.isWhitespace = false)
    (hne : d ≠ []) :
    (((w₁ ++ d ++ w₂).dropWhile Char.isWhitespace).reverse.dropWhile Char.isWhitespace).reverse = d := by
  simp only [List.mem_append, or_imp, forall_and] at h
  have hh : ∀ x, ∀ c ∈ (d ++ x).head?, c.isWhitespace = false := by
    intro x c hc
    obtain ⟨e, d', rfl⟩ := List.exists_cons_of_ne_nil hne
    simp at hc
    exact hc ▸ hd e (List.mem_cons_self ..)
  rw [List.append_assoc, dropWhile_ws_append h.1, dropWhile_ws_eq_self (hh w₂), List.reverse_append,
    dropWhile_ws_append (by simpa using h.2), dropWhile_ws_eq_self, List.reverse_reverse]
  intro c hc
  exact hd c (List.mem_reverse.1 (List.mem_of_mem_head? hc))

/-! ### Sources -/

/-- Splitting undoes joining. -/
theorem splitLines_intercalate {lines : List (List Char)} (hne : lines ≠ []) (h : ∀ l ∈ lines, '\n' ∉ l) :
    splitLines (['\n'].intercalate lines) = lines := by
  have line : ∀ l : List Char, '\n' ∉ l → splitLines l = [l] := by
    intro l hl
    induction l with
    | nil => rfl
    | cons c l ih =>
      simp only [List.mem_cons, not_or] at hl
      simp [splitLines, Ne.symm hl.1, ih hl.2]
  have cut : ∀ l x : List Char, '\n' ∉ l → splitLines (l ++ '\n' :: x) = l :: splitLines x := by
    intro l x hl
    induction l with
    | nil => simp [splitLines]
    | cons c l ih =>
      simp only [List.mem_cons, not_or] at hl
      simp [splitLines, Ne.symm hl.1, ih hl.2]
  induction lines with
  | nil => exact absurd rfl hne
  | cons l ls ih =>
    simp only [List.forall_mem_cons] at h
    cases ls with
    | nil => simpa using line l h.1
    | cons l' ls =>
      have := ih (by simp) h.2
      rw [List.intercalate_cons_cons, List.append_assoc]
      exact (cut l _ h.1).trans (congrArg _ this)

/-- All the lines are accepted, or one refuses the load. -/
theorem parseLines_cases (lines : List (List Char)) :
    (∃ bs : List (Option Byte), lines.map parseLine = bs.map .ok ∧ parseLines lines = .ok (bs.filterMap id)) ∨
    (∃ l ∈ lines, ∃ e, parseLine l = .error e ∧ parseLines lines = .error e) := by
  induction lines with
  | nil => exact .inl ⟨[], rfl, rfl⟩
  | cons l ls ih =>
    cases hl : parseLine l with
    | error e => exact .inr ⟨l, List.mem_cons_self .., e, hl, by simp [parseLines, hl]⟩
    | ok b =>
      rcases ih with ⟨bs, h, hp⟩ | ⟨l', h', e, he, hp⟩
      · exact .inl ⟨b :: bs, by simp [hl, h], by cases b <;> simp [parseLines, hl, hp]⟩
      · exact .inr ⟨l', List.mem_cons_of_mem _ h', e, he, by cases b <;> simp [parseLines, hl, hp]⟩

/-- The only error of a line is that it is a bad one. -/
theorem parseLine_error {l : List Char} {e : LoadError} (h : parseLine l = .error e) : e = .badLine := by
  simp only [parseLine] at h
  repeat' split at h
  all_goals cases h
  all_goals rfl

/-- What a source made of lines gives. -/
theorem loadProgram_cases {lines : List (List Char)} (hne : lines ≠ []) (h : ∀ l ∈ lines, '\n' ∉ l) :
    (∃ bs : List (Option Byte), lines.map parseLine = bs.map .ok ∧ loadProgram (some (['\n'].intercalate lines)) =
      if 256 < (bs.filterMap id).length then .error .tooLong else .ok (bs.filterMap id)) ∨
    (∃ l ∈ lines, parseLine l = .error .badLine ∧ loadProgram (some (['\n'].intercalate lines)) = .error .badLine) := by
  simp only [loadProgram, splitLines_intercalate hne h]
  rcases parseLines_cases lines with ⟨bs, hb, hp⟩ | ⟨l, hm, e, he, hp⟩ <;> rw [hp]
  · exact .inl ⟨bs, hb, rfl⟩
  · obtain rfl := parseLine_error he
    exact .inr ⟨l, hm, he, rfl⟩

end Sys2Proof.Machine
end

