-- ==== Sys2Proof/Laws/Decode.lean ====
section
/-! SUPPORT. The opcode map read both ways, and what `decode` and `assemble` do in its terms. -/

namespace Sys2Proof

/-- A row's opcode decodes to the row. -/
@[simp] theorem decodeOpcode_code (o : Op) : decodeOpcode o.code = some o := by cases o <;> decide

/-- Only a row's opcode decodes to it. -/
theorem decodeOpcode_eq_some {b : Byte} {o : Op} : decodeOpcode b = some o ↔ b = o.code := by
  constructor
  · intro h
    exact (beq_iff_eq.1 (List.find?_some (p := fun o : Op => o.code == b) h)).symm
  · rintro rfl
    exact decodeOpcode_code o

@[simp] theorem assemble_op (o : Op) (b1 b2 : Byte) : (assemble o b1 b2).op = o := by cases o <;> rfl

/-- An instruction has as many operand bytes as its row says. -/
theorem operands_length (i : Instr) : i.operands.length = i.op.nops := by cases i <;> rfl

theorem encode_length (i : Instr) : (encode i).length = i.op.len := by
  simp [encode, operands_length, Op.len, Nat.add_comm]

/-- Putting an instruction together from its own operand bytes gives it back, whatever follows them. -/
@[simp] theorem assemble_operands (i : Instr) (rest : List Byte) :
    assemble i.op (operand (i.operands ++ rest) 0) (operand (i.operands ++ rest) 1) = i := by cases i <;> rfl

/-- The operand bytes of what `assemble` puts together are the bytes it was given, as many as the row has. -/
theorem operands_assemble (o : Op) (bs : List Byte) (h : o.nops ≤ bs.length) :
    (assemble o (operand bs 0) (operand bs 1)).operands = bs.take o.nops := by
  match bs with
  | [] => cases o <;> simp_all [Op.nops, Op.format, Format.nops, assemble, Instr.operands]
  | [b] => cases o <;> simp_all [Op.nops, Op.format, Format.nops, assemble, Instr.operands, operand]
  | b :: c :: bs => cases o <;> simp [Op.nops, Op.format, Format.nops, assemble, Instr.operands, operand]

/-- Well-formed in plain numbers. -/
theorem wf_iff {i : Instr} : i.wf = true ↔ ∀ r ∈ i.regBytes, r.toNat < 8 := by
  simp [Instr.wf]

/-- When `decode` answers an instruction, in terms of the opcode map. -/
theorem decode_cons {op : Byte} {bs rest : List Byte} {i : Instr} :
    decode (op :: bs) = .ok (i, rest) ↔
      ∃ o, op = o.code ∧ o.nops ≤ bs.length ∧ i = assemble o (operand bs 0) (operand bs 1) ∧ rest = bs.drop o.nops := by
  have hd : decode (op :: bs) =
      match decodeOpcode op with
      | none => .error (.unknownOpcode op)
      | some o =>
        if bs.length < o.nops then .error (.truncated o)
        else .ok (assemble o (operand bs 0) (operand bs 1), bs.drop o.nops) := rfl
  rw [hd]
  constructor
  · intro h
    split at h
    · cases h
    · next o ho =>
      split at h
      · cases h
      · cases h
        exact ⟨o, decodeOpcode_eq_some.1 ho, by omega, rfl, rfl⟩
  · rintro ⟨o, rfl, hle, rfl, rfl⟩
    simp [Nat.not_lt.2 hle]

end Sys2Proof
end

