-- ==== Sys2Proof/Laws/Memory.lean ====
section
/-! SUPPORT. The laws of `Memory.read` and `Memory.write`: read after write, and that a write keeps the canonical form. -/

namespace Sys2Proof.Machine.Memory

@[simp] theorem read_nil (a : Nat) : Memory.read [] a = unlisted a := rfl

theorem wf_nil : Memory.wf [] := by decide

/-- An entry at the front answers for its own address and no other. -/
theorem read_cons (k : Nat) (v : Byte) (m : Memory) (a : Nat) :
    Memory.read ((k, v) :: m) a = if k = a then v else m.read a := by
  simp only [read, lookup]
  split <;> rfl

theorem wf_tail {c : Host.Cell} {m : Memory} (h : Memory.wf (c :: m)) : m.wf :=
  ⟨(List.pairwise_cons.1 h.1).2, fun p hp => h.2 p (List.mem_cons_of_mem _ hp)⟩

theorem lt_of_mem_tail {k : Nat} {v : Byte} {m : Memory} (h : Memory.wf ((k, v) :: m)) : ∀ p ∈ m, k < p.1 :=
  (List.pairwise_cons.1 h.1).1

/-- An address below every entry is not listed. -/
theorem read_of_lt {m : Memory} {a : Nat} (h : ∀ p ∈ m, a < p.1) : m.read a = unlisted a := by
  induction m with
  | nil => rfl
  | cons c m ih =>
    obtain ⟨k, v⟩ := c
    have hk : a < k := h (k, v) (List.mem_cons_self ..)
    rw [read_cons, if_neg (by omega), ih fun p hp => h p (List.mem_cons_of_mem _ hp)]

/-- Where a write can leave an entry. -/
theorem mem_write {m : Memory} {a : Nat} {v : Byte} {p : Host.Cell} (h : p ∈ m.write a v) :
    p ∈ m ∨ (p = (a, v) ∧ v ≠ unlisted a) := by
  induction m with
  | nil =>
    simp only [write] at h
    split at h <;> simp_all
  | cons c m ih =>
    obtain ⟨k, w⟩ := c
    simp only [write] at h
    split at h
    · split at h
      · exact .inl h
      · next hv => exact (List.mem_cons.1 h).symm.imp id fun e => ⟨e, hv⟩
    · split at h
      · split at h
        · exact .inl (List.mem_cons_of_mem _ h)
        · next hv =>
          exact (List.mem_cons.1 h).symm.imp (List.mem_cons_of_mem _) fun e => ⟨e, hv⟩
      · rcases List.mem_cons.1 h with rfl | h
        · exact .inl (List.mem_cons_self ..)
        · exact (ih h).imp (List.mem_cons_of_mem _) id

/-- A write to a cell of the memory keeps the canonical form. -/
theorem write_wf {m : Memory} {a : Nat} (v : Byte) (h : m.wf) (ha : a < Config.memSize) : (m.write a v).wf := by
  refine ⟨?_, fun p hp => ?_⟩
  · induction m with
    | nil => simp only [write]; split <;> simp
    | cons c m ih =>
      obtain ⟨k, w⟩ := c
      have hlt := lt_of_mem_tail h
      simp only [write]
      split
      · next hak =>
        split
        · exact h.1
        · refine List.pairwise_cons.2 ⟨fun p hp => ?_, h.1⟩
          rcases List.mem_cons.1 hp with rfl | hp
          · exact hak
          · exact Nat.lt_trans hak (hlt p hp)
      · split
        · next hak =>
          split
          · exact (wf_tail h).1
          · exact List.pairwise_cons.2 ⟨fun p hp => hak ▸ hlt p hp, (wf_tail h).1⟩
        · next h1 h2 =>
          refine List.pairwise_cons.2 ⟨fun p hp => ?_, ih (wf_tail h)⟩
          rcases mem_write hp with hp | ⟨rfl, -⟩
          · exact hlt p hp
          · show k < a
            omega
  · rcases mem_write hp with hp | ⟨rfl, hv⟩
    · exact h.2 p hp
    · exact ⟨ha, hv⟩

/-- Read after write. -/
theorem read_write {m : Memory} (a : Nat) (v : Byte) (b : Nat) (h : m.wf) :
    (m.write a v).read b = if b = a then v else m.read b := by
  induction m with
  | nil =>
    simp only [write]
    split
    · next hv => subst hv; split <;> simp_all
    · rw [read_cons]; simp only [eq_comm]
  | cons c m ih =>
    obtain ⟨k, w⟩ := c
    have hlt := lt_of_mem_tail h
    have hout : a ≤ k → Memory.read m a = unlisted a := fun hk =>
      read_of_lt fun p hp => Nat.lt_of_le_of_lt hk (hlt p hp)
    simp only [write]
    split
    · next hak =>
      split
      · next hv =>
        split
        · next hb => subst hb; rw [read_cons, if_neg (by omega), hout (by omega), hv]
        · rfl
      · rw [read_cons]; simp only [eq_comm]
    · split
      · next hak =>
        split
        · next hv =>
          split
          · next hb => subst hb; rw [hout (by omega), hv]
          · rw [read_cons, if_neg (by omega)]
        · rw [read_cons, read_cons, hak]
          split <;> split <;> first | rfl | omega
      · rw [read_cons, read_cons, ih (wf_tail h)]
        split <;> split <;> first | rfl | omega

@[simp] theorem read_write_same {m : Memory} {a : Nat} {v : Byte} (h : m.wf) : (m.write a v).read a = v := by
  rw [read_write a v a h, if_pos rfl]

theorem read_write_other {m : Memory} {a b : Nat} {v : Byte} (h : m.wf) (hb : b ≠ a) :
    (m.write a v).read b = m.read b := by
  rw [read_write a v b h, if_neg hb]

end Sys2Proof.Machine.Memory

namespace Sys2Proof.Machine

/-- A data write, whose address is a byte, keeps the canonical form. -/
theorem memWrite_wf {s : State} (a v : Byte) (h : s.mem.wf) : (s.memWrite a v).mem.wf :=
  Memory.write_wf v h a.isLt

/-- Storing bytes keeps the canonical form. -/
theorem storeBytes_wf {s : State} (a : Nat) (bs : List Byte) (h : s.mem.wf) : (s.storeBytes a bs).mem.wf := by
  induction bs generalizing s a with
  | nil => exact h
  | cons b bs ih =>
    refine ih (a + 1) ?_
    split
    · next ha => exact Memory.write_wf b h ha
    · exact h

end Sys2Proof.Machine
end

