-- ==== Sys2Proof/Laws/State.lean ====
section
/-! SUPPORT. Each field after each update of the state, by `rfl`, so that no proof unfolds a record update. -/

namespace Sys2Proof.Machine

variable (s : State)

/-! ### The views of registers and memory -/

@[simp] theorem reg_eq (i : Fin Config.nreg) : s.reg i = s.x[i.val] := rfl
@[simp] theorem sp_eq : s.sp = s.x[7] := rfl
@[simp] theorem memRead_eq (a : Byte) : s.memRead a = s.mem.read a.toNat := rfl

/-! ### `setReg` -/

@[simp] theorem setReg_x (i : Fin Config.nreg) (v : Byte) : (s.setReg i v).x = s.x.set i.val v i.isLt := rfl
@[simp] theorem setReg_pc (i : Fin Config.nreg) (v : Byte) : (s.setReg i v).pc = s.pc := rfl
@[simp] theorem setReg_fl (i : Fin Config.nreg) (v : Byte) : (s.setReg i v).fl = s.fl := rfl
@[simp] theorem setReg_run (i : Fin Config.nreg) (v : Byte) : (s.setReg i v).run = s.run := rfl
@[simp] theorem setReg_fault (i : Fin Config.nreg) (v : Byte) : (s.setReg i v).fault = s.fault := rfl
@[simp] theorem setReg_out (i : Fin Config.nreg) (v : Byte) : (s.setReg i v).out = s.out := rfl
@[simp] theorem setReg_mem (i : Fin Config.nreg) (v : Byte) : (s.setReg i v).mem = s.mem := rfl
@[simp] theorem setReg_params (i : Fin Config.nreg) (v : Byte) : (s.setReg i v).params = s.params := rfl
@[simp] theorem setReg_pins (i : Fin Config.nreg) (v : Byte) : (s.setReg i v).pins = s.pins := rfl

/-! ### `setSp` -/

@[simp] theorem setSp_x (v : Byte) : (s.setSp v).x = s.x.set 7 v := rfl
@[simp] theorem setSp_pc (v : Byte) : (s.setSp v).pc = s.pc := rfl
@[simp] theorem setSp_fl (v : Byte) : (s.setSp v).fl = s.fl := rfl
@[simp] theorem setSp_run (v : Byte) : (s.setSp v).run = s.run := rfl
@[simp] theorem setSp_fault (v : Byte) : (s.setSp v).fault = s.fault := rfl
@[simp] theorem setSp_out (v : Byte) : (s.setSp v).out = s.out := rfl
@[simp] theorem setSp_mem (v : Byte) : (s.setSp v).mem = s.mem := rfl
@[simp] theorem setSp_params (v : Byte) : (s.setSp v).params = s.params := rfl
@[simp] theorem setSp_pins (v : Byte) : (s.setSp v).pins = s.pins := rfl

/-! ### `decSp` -/

@[simp] theorem decSp_x : s.decSp.x = s.x.set 7 (s.x[7] - 1) := rfl
@[simp] theorem decSp_pc : s.decSp.pc = s.pc := rfl
@[simp] theorem decSp_fl : s.decSp.fl = s.fl := rfl
@[simp] theorem decSp_run : s.decSp.run = s.run := rfl
@[simp] theorem decSp_fault : s.decSp.fault = s.fault := rfl
@[simp] theorem decSp_out : s.decSp.out = s.out := rfl
@[simp] theorem decSp_mem : s.decSp.mem = s.mem := rfl
@[simp] theorem decSp_params : s.decSp.params = s.params := rfl
@[simp] theorem decSp_pins : s.decSp.pins = s.pins := rfl

/-! ### `incSp` -/

@[simp] theorem incSp_x : s.incSp.x = s.x.set 7 (s.x[7] + 1) := rfl
@[simp] theorem incSp_pc : s.incSp.pc = s.pc := rfl
@[simp] theorem incSp_fl : s.incSp.fl = s.fl := rfl
@[simp] theorem incSp_run : s.incSp.run = s.run := rfl
@[simp] theorem incSp_fault : s.incSp.fault = s.fault := rfl
@[simp] theorem incSp_out : s.incSp.out = s.out := rfl
@[simp] theorem incSp_mem : s.incSp.mem = s.mem := rfl
@[simp] theorem incSp_params : s.incSp.params = s.params := rfl
@[simp] theorem incSp_pins : s.incSp.pins = s.pins := rfl

/-! ### `setPc` -/

@[simp] theorem setPc_x (t : PcWord) : (s.setPc t).x = s.x := rfl
@[simp] theorem setPc_pc (t : PcWord) : (s.setPc t).pc = t := rfl
@[simp] theorem setPc_fl (t : PcWord) : (s.setPc t).fl = s.fl := rfl
@[simp] theorem setPc_run (t : PcWord) : (s.setPc t).run = s.run := rfl
@[simp] theorem setPc_fault (t : PcWord) : (s.setPc t).fault = s.fault := rfl
@[simp] theorem setPc_out (t : PcWord) : (s.setPc t).out = s.out := rfl
@[simp] theorem setPc_mem (t : PcWord) : (s.setPc t).mem = s.mem := rfl
@[simp] theorem setPc_params (t : PcWord) : (s.setPc t).params = s.params := rfl
@[simp] theorem setPc_pins (t : PcWord) : (s.setPc t).pins = s.pins := rfl

/-! ### `setFl` -/

@[simp] theorem setFl_x (b : Bool) : (s.setFl b).x = s.x := rfl
@[simp] theorem setFl_pc (b : Bool) : (s.setFl b).pc = s.pc := rfl
@[simp] theorem setFl_fl (b : Bool) : (s.setFl b).fl = b := rfl
@[simp] theorem setFl_run (b : Bool) : (s.setFl b).run = s.run := rfl
@[simp] theorem setFl_fault (b : Bool) : (s.setFl b).fault = s.fault := rfl
@[simp] theorem setFl_out (b : Bool) : (s.setFl b).out = s.out := rfl
@[simp] theorem setFl_mem (b : Bool) : (s.setFl b).mem = s.mem := rfl
@[simp] theorem setFl_params (b : Bool) : (s.setFl b).params = s.params := rfl
@[simp] theorem setFl_pins (b : Bool) : (s.setFl b).pins = s.pins := rfl

/-! ### `setRun` -/

@[simp] theorem setRun_x (r : RunState) : (s.setRun r).x = s.x := rfl
@[simp] theorem setRun_pc (r : RunState) : (s.setRun r).pc = s.pc := rfl
@[simp] theorem setRun_fl (r : RunState) : (s.setRun r).fl = s.fl := rfl
@[simp] theorem setRun_run (r : RunState) : (s.setRun r).run = r := rfl
@[simp] theorem setRun_fault (r : RunState) : (s.setRun r).fault = s.fault := rfl
@[simp] theorem setRun_out (r : RunState) : (s.setRun r).out = s.out := rfl
@[simp] theorem setRun_mem (r : RunState) : (s.setRun r).mem = s.mem := rfl
@[simp] theorem setRun_params (r : RunState) : (s.setRun r).params = s.params := rfl
@[simp] theorem setRun_pins (r : RunState) : (s.setRun r).pins = s.pins := rfl

/-! ### `memWrite` -/

@[simp] theorem memWrite_x (a v : Byte) : (s.memWrite a v).x = s.x := rfl
@[simp] theorem memWrite_pc (a v : Byte) : (s.memWrite a v).pc = s.pc := rfl
@[simp] theorem memWrite_fl (a v : Byte) : (s.memWrite a v).fl = s.fl := rfl
@[simp] theorem memWrite_run (a v : Byte) : (s.memWrite a v).run = s.run := rfl
@[simp] theorem memWrite_fault (a v : Byte) : (s.memWrite a v).fault = s.fault := rfl
@[simp] theorem memWrite_out (a v : Byte) : (s.memWrite a v).out = s.out := rfl
@[simp] theorem memWrite_mem (a v : Byte) : (s.memWrite a v).mem = s.mem.write a.toNat v := rfl
@[simp] theorem memWrite_params (a v : Byte) : (s.memWrite a v).params = s.params := rfl
@[simp] theorem memWrite_pins (a v : Byte) : (s.memWrite a v).pins = s.pins := rfl

/-! ### `output` -/

@[simp] theorem output_x (v : Byte) : (s.output v).x = s.x := rfl
@[simp] theorem output_pc (v : Byte) : (s.output v).pc = s.pc := rfl
@[simp] theorem output_fl (v : Byte) : (s.output v).fl = s.fl := rfl
@[simp] theorem output_run (v : Byte) : (s.output v).run = s.run := rfl
@[simp] theorem output_fault (v : Byte) : (s.output v).fault = s.fault := rfl
@[simp] theorem output_out (v : Byte) : (s.output v).out = s.out ++ [v] := rfl
@[simp] theorem output_mem (v : Byte) : (s.output v).mem = s.mem := rfl
@[simp] theorem output_params (v : Byte) : (s.output v).params = s.params := rfl
@[simp] theorem output_pins (v : Byte) : (s.output v).pins = s.pins := rfl

/-! ### `withPins` -/

@[simp] theorem withPins_x (p : Pins) : (s.withPins p).x = s.x := rfl
@[simp] theorem withPins_pc (p : Pins) : (s.withPins p).pc = s.pc := rfl
@[simp] theorem withPins_fl (p : Pins) : (s.withPins p).fl = s.fl := rfl
@[simp] theorem withPins_run (p : Pins) : (s.withPins p).run = s.run := rfl
@[simp] theorem withPins_fault (p : Pins) : (s.withPins p).fault = s.fault := rfl
@[simp] theorem withPins_out (p : Pins) : (s.withPins p).out = s.out := rfl
@[simp] theorem withPins_mem (p : Pins) : (s.withPins p).mem = s.mem := rfl
@[simp] theorem withPins_params (p : Pins) : (s.withPins p).params = s.params := rfl
@[simp] theorem withPins_pins (p : Pins) : (s.withPins p).pins = p := rfl

/-! ### `raise` -/

@[simp] theorem raise_x (c : FaultCause) : (raise c s).x = s.x := rfl
@[simp] theorem raise_pc (c : FaultCause) : (raise c s).pc = s.pc := rfl
@[simp] theorem raise_fl (c : FaultCause) : (raise c s).fl = s.fl := rfl
@[simp] theorem raise_run (c : FaultCause) : (raise c s).run = .faulted := rfl
@[simp] theorem raise_fault (c : FaultCause) : (raise c s).fault = { code := c.code, kind := c.kind, pc := s.pc, info := c.info } := rfl
@[simp] theorem raise_out (c : FaultCause) : (raise c s).out = s.out := rfl
@[simp] theorem raise_mem (c : FaultCause) : (raise c s).mem = s.mem := rfl
@[simp] theorem raise_params (c : FaultCause) : (raise c s).params = s.params := rfl
@[simp] theorem raise_pins (c : FaultCause) : (raise c s).pins = s.pins := rfl

/-! ### `holdInReset` -/

@[simp] theorem holdInReset_x : (holdInReset s).x = resetRegs s.params := rfl
@[simp] theorem holdInReset_pc : (holdInReset s).pc = 0 := rfl
@[simp] theorem holdInReset_fl : (holdInReset s).fl = false := rfl
@[simp] theorem holdInReset_run : (holdInReset s).run = .inReset := rfl
@[simp] theorem holdInReset_fault : (holdInReset s).fault = FaultRecord.clear := rfl
@[simp] theorem holdInReset_out : (holdInReset s).out = [] := rfl
@[simp] theorem holdInReset_mem : (holdInReset s).mem = s.mem := rfl
@[simp] theorem holdInReset_params : (holdInReset s).params = s.params := rfl
@[simp] theorem holdInReset_pins : (holdInReset s).pins = s.pins := rfl

/-! ### `releaseReset` -/

@[simp] theorem releaseReset_x : (releaseReset s).x = s.x := rfl
@[simp] theorem releaseReset_pc : (releaseReset s).pc = s.pc := rfl
@[simp] theorem releaseReset_fl : (releaseReset s).fl = s.fl := rfl
@[simp] theorem releaseReset_run : (releaseReset s).run = .running := rfl
@[simp] theorem releaseReset_fault : (releaseReset s).fault = s.fault := rfl
@[simp] theorem releaseReset_out : (releaseReset s).out = s.out := rfl
@[simp] theorem releaseReset_mem : (releaseReset s).mem = s.mem := rfl
@[simp] theorem releaseReset_params : (releaseReset s).params = s.params := rfl
@[simp] theorem releaseReset_pins : (releaseReset s).pins = s.pins := rfl

end Sys2Proof.Machine
end

