-- ==== Sys2Proof/Laws/Operands.lean ====
section
/-! SUPPORT. What the shared operations do: the register check, raising a fault, the ALU, a push. -/

namespace Sys2Proof.Machine

/-- A legal register operand. -/
theorem withReg_of_lt {b : Byte} {s : State} {body : Fin Config.nreg → Result} (h : b.toNat < 8) :
    withReg b s body = body ⟨b.toNat, h⟩ := dif_pos h

/-- An illegal register operand. -/
theorem withReg_of_ge {b : Byte} {s : State} {body : Fin Config.nreg → Result} (h : 8 ≤ b.toNat) :
    withReg b s body = .next (raise (.registerIndex b) s) := dif_neg (Nat.not_lt.2 h)

/-- All that the register check can do: go on with the register it names, or fault on its byte. -/
theorem withReg_cases (b : Byte) (s : State) (body : Fin Config.nreg → Result) :
    (∃ h : b.toNat < 8, withReg b s body = body ⟨b.toNat, h⟩) ∨
    (8 ≤ b.toNat ∧ withReg b s body = .next (raise (.registerIndex b) s)) := by
  rcases Nat.lt_or_ge b.toNat 8 with h | h
  · exact .inl ⟨h, withReg_of_lt h⟩
  · exact .inr ⟨h, withReg_of_ge h⟩

/-- Raising a fault in the terms of the fault record. -/
theorem raise_eq (c : FaultCause) (s : State) : raise c s = s.faultedWith c.code c.kind c.info := rfl

@[simp] theorem trunc8_toNat (n : Nat) : (trunc8 n).toNat = n % 256 := by simp [trunc8]

@[simp] theorem zext9_toNat (b : Byte) : (zext9 b).toNat = b.toNat := by
  simp only [zext9, BitVec.toNat_setWidth]
  omega

theorem zext9_lt (b : Byte) : (zext9 b).toNat < 256 := by rw [zext9_toNat]; exact b.isLt

/-- A legal ALU instruction with a result. -/
theorem execAlu_result {tag : AluTag} {a b y : Byte} {s : State} (ha : a.toNat < 8) (hb : b.toNat < 8)
    (h : alu tag s.x[a.toNat] s.x[b.toNat] = .result y) :
    execAlu tag a b s = .next { s with x := s.x.set a.toNat y, pc := s.pc + 3 } := by
  unfold execAlu withRegs
  rw [withReg_of_lt ha, withReg_of_lt hb]
  simp only [reg_eq, h]
  rfl

/-- A legal ALU instruction with an equality output. -/
theorem execAlu_equal {tag : AluTag} {a b : Byte} {e : Bool} {s : State} (ha : a.toNat < 8) (hb : b.toNat < 8)
    (h : alu tag s.x[a.toNat] s.x[b.toNat] = .equal e) :
    execAlu tag a b s = .next { s with fl := e, pc := s.pc + 3 } := by
  unfold execAlu withRegs
  rw [withReg_of_lt ha, withReg_of_lt hb]
  simp only [reg_eq, h]
  rfl

/-- A push: SP goes down and the byte goes where it then points. -/
theorem pushByte_eq (v : State → Byte) (s : State) :
    pushByte v s = { s with x := s.x.set 7 (s.x[7] - 1), mem := s.mem.write (s.x[7] - 1).toNat (v s.decSp) } := by
  unfold pushByte
  have : s.decSp.sp = s.x[7] - 1 := by simp
  rw [this]
  rfl

end Sys2Proof.Machine
end

