-- ==== Sys2Proof/Laws/Exec.lean ====
section
/-! SUPPORT. All that each meaning can do: the state it commits, or the fault of its CHECK phase. -/

namespace Sys2Proof.Machine

variable (s : State)

/-- What the CHECK phase of an instruction faults on. -/
def CheckFails (i : Instr) (t : State) : Prop :=
  (∃ b ∈ i.regBytes, 8 ≤ b.toNat ∧ t = raise (.registerIndex b) s) ∨
  ((∃ r, i = .call r) ∧ 256 ≤ s.pc.toNat + 2 ∧ t = raise (.returnAddress (s.pc + 2)) s)

/-- The common shape of the instructions with one register operand. -/
theorem withReg_check {i : Instr} {r : Byte} (hr : r ∈ i.regBytes) (body : Fin Config.nreg → Result) :
    (∃ h : r.toNat < 8, withReg r s body = body ⟨r.toNat, h⟩) ∨
    (∃ t, withReg r s body = .next t ∧ CheckFails s i t) :=
  (withReg_cases r s body).imp id fun ⟨h, e⟩ => ⟨_, e, .inl ⟨r, hr, h, rfl⟩⟩

theorem execAlu_cases {i : Instr} {a b : Byte} (tag : AluTag) (ha : a ∈ i.regBytes) (hb : b ∈ i.regBytes) :
    (∃ (ha : a.toNat < 8) (hb : b.toNat < 8), execAlu tag a b s =
      match alu tag s.x[a.toNat] s.x[b.toNat] with
      | .result y => .next { s with x := s.x.set a.toNat y, pc := s.pc + 3 }
      | .equal e => .next { s with fl := e, pc := s.pc + 3 }) ∨
    (∃ t, execAlu tag a b s = .next t ∧ CheckFails s i t) := by
  unfold execAlu withRegs
  rcases withReg_check s ha _ with ⟨ha', e⟩ | h
  · rw [e]
    rcases withReg_check s hb _ with ⟨hb', e⟩ | h
    · exact .inl ⟨ha', hb', e⟩
    · exact .inr h
  · exact .inr h

theorem exec_add_cases (a b : Byte) :
    (∃ (_ : a.toNat < 8) (_ : b.toNat < 8), exec (.add a b) s = .next { s with
      x := s.x.set a.toNat (trunc8 (s.x[a.toNat].toNat + s.x[b.toNat].toNat)), pc := s.pc + 3 }) ∨
    (∃ t, exec (.add a b) s = .next t ∧ CheckFails s (.add a b) t) :=
  execAlu_cases s .add (by simp [Instr.regBytes]) (by simp [Instr.regBytes])

theorem exec_mul_cases (a b : Byte) :
    (∃ (_ : a.toNat < 8) (_ : b.toNat < 8), exec (.mul a b) s = .next { s with
      x := s.x.set a.toNat (trunc8 (s.x[a.toNat].toNat * s.x[b.toNat].toNat)), pc := s.pc + 3 }) ∨
    (∃ t, exec (.mul a b) s = .next t ∧ CheckFails s (.mul a b) t) :=
  execAlu_cases s .mul (by simp [Instr.regBytes]) (by simp [Instr.regBytes])

theorem exec_cmp_cases (a b : Byte) :
    (∃ (_ : a.toNat < 8) (_ : b.toNat < 8), exec (.cmp a b) s = .next { s with
      fl := eqFlag s.x[a.toNat] s.x[b.toNat], pc := s.pc + 3 }) ∨
    (∃ t, exec (.cmp a b) s = .next t ∧ CheckFails s (.cmp a b) t) :=
  execAlu_cases s .cmp (by simp [Instr.regBytes]) (by simp [Instr.regBytes])

theorem exec_ldi_cases (r imm : Byte) :
    (∃ _ : r.toNat < 8, exec (.ldi r imm) s = .next { s with x := s.x.set r.toNat imm, pc := s.pc + 3 }) ∨
    (∃ t, exec (.ldi r imm) s = .next t ∧ CheckFails s (.ldi r imm) t) := by
  simp only [exec, execLdi]
  exact withReg_check s (i := .ldi r imm) (r := r) (List.mem_singleton.2 rfl) _

theorem exec_push_cases (r : Byte) :
    (∃ _ : r.toNat < 8, exec (.push r) s = .next { s with
      x := s.x.set 7 (s.x[7] - 1)
      mem := s.mem.write (s.x[7] - 1).toNat (s.x.set 7 (s.x[7] - 1))[r.toNat]
      pc := s.pc + 2 }) ∨
    (∃ t, exec (.push r) s = .next t ∧ CheckFails s (.push r) t) := by
  simp only [exec, execPush]
  rcases Nat.lt_or_ge r.toNat 8 with h | h
  · refine .inl ⟨h, ?_⟩
    rw [withReg_of_lt h, pushByte_eq]
    rfl
  · exact .inr ⟨_, withReg_of_ge h, .inl ⟨r, List.mem_singleton.2 rfl, h, rfl⟩⟩

theorem exec_pop_cases (r : Byte) :
    (∃ _ : r.toNat < 8, exec (.pop r) s = .next { s with
      x := (s.x.set r.toNat (s.mem.read s.x[7].toNat)).set 7 ((s.x.set r.toNat (s.mem.read s.x[7].toNat))[7] + 1)
      pc := s.pc + 2 }) ∨
    (∃ t, exec (.pop r) s = .next t ∧ CheckFails s (.pop r) t) := by
  simp only [exec, execPop]
  exact withReg_check s (i := .pop r) (r := r) (List.mem_singleton.2 rfl) _

theorem exec_prn_cases (r : Byte) :
    (∃ _ : r.toNat < 8, exec (.prn r) s = .next { s with out := s.out ++ [s.x[r.toNat]], pc := s.pc + 2 }) ∨
    (∃ t, exec (.prn r) s = .next t ∧ CheckFails s (.prn r) t) := by
  simp only [exec, execPrn]
  exact withReg_check s (i := .prn r) (r := r) (List.mem_singleton.2 rfl) _

theorem exec_jmp_cases (r : Byte) :
    (∃ _ : r.toNat < 8, exec (.jmp r) s = .next { s with pc := zext9 s.x[r.toNat] }) ∨
    (∃ t, exec (.jmp r) s = .next t ∧ CheckFails s (.jmp r) t) := by
  simp only [exec, execJmp]
  exact withReg_check s (i := .jmp r) (r := r) (List.mem_singleton.2 rfl) _

theorem exec_jeq_cases (r : Byte) :
    (∃ _ : r.toNat < 8, exec (.jeq r) s = .next { s with pc := if s.fl then zext9 s.x[r.toNat] else s.pc + 2 }) ∨
    (∃ t, exec (.jeq r) s = .next t ∧ CheckFails s (.jeq r) t) := by
  simp only [exec, execJeq, branch]
  exact withReg_check s (i := .jeq r) (r := r) (List.mem_singleton.2 rfl) _

theorem exec_jne_cases (r : Byte) :
    (∃ _ : r.toNat < 8, exec (.jne r) s = .next { s with pc := if !s.fl then zext9 s.x[r.toNat] else s.pc + 2 }) ∨
    (∃ t, exec (.jne r) s = .next t ∧ CheckFails s (.jne r) t) := by
  simp only [exec, execJne, branch]
  exact withReg_check s (i := .jne r) (r := r) (List.mem_singleton.2 rfl) _

theorem exec_call_cases (r : Byte) :
    (∃ (_ : r.toNat < 8) (_ : s.pc.toNat + 2 < 256), exec (.call r) s = .next { s with
      x := s.x.set 7 (s.x[7] - 1)
      mem := s.mem.write (s.x[7] - 1).toNat (trunc8 (s.pc.toNat + 2))
      pc := zext9 (s.x.set 7 (s.x[7] - 1))[r.toNat] }) ∨
    (∃ t, exec (.call r) s = .next t ∧ CheckFails s (.call r) t) := by
  simp only [exec, execCall]
  rcases Nat.lt_or_ge r.toNat 8 with h | h
  · rw [withReg_of_lt h]
    rcases Nat.lt_or_ge (s.pc.toNat + 2) 256 with hp | hp
    · refine .inl ⟨h, hp, (if_neg (Nat.not_le.2 hp)).trans ?_⟩
      rw [pushByte_eq]
      rfl
    · exact .inr ⟨_, if_pos hp, .inr ⟨⟨r, rfl⟩, hp, rfl⟩⟩
  · exact .inr ⟨_, withReg_of_ge h, .inl ⟨r, List.mem_singleton.2 rfl, h, rfl⟩⟩

theorem exec_ret_eq : exec .ret s = .next { s with
    pc := zext9 (s.mem.read s.x[7].toNat), x := s.x.set 7 (s.x[7] + 1) } := rfl

theorem exec_hlt_eq : exec .hlt s = .next { s with run := .halted } := rfl

/-- What holds of the state an instruction commits: its operands were legal, and it changed only what its rule names. -/
structure Commits (i : Instr) (s t : State) : Prop where
  legal  : ∀ b ∈ i.regBytes, b.toNat < 8
  regs   : ∀ k : Fin 8, k.val ∉ regsWritten i → t.x[k.val] = s.x[k.val]
  fl     : t.fl = s.fl ∨ ∃ a b, i = .cmp a b
  out    : t.out = s.out ∨ ∃ (r : Byte) (hr : r.toNat < 8), i = .prn r ∧ t.out = s.out ++ [s.x[r.toNat]]
  run    : t.run = s.run ∨ (i = .hlt ∧ t = { s with run := .halted })
  pc     : s.pc.toNat + i.op.len ≤ 256 → t.pc.toNat ≤ 256
  fault  : t.fault = s.fault
  params : t.params = s.params
  pins   : t.pins = s.pins
  mem    : t.mem = s.mem ∨ ∃ a v, storeAddr i s = some a ∧ a < 256 ∧ t.mem = s.mem.write a v

theorem zext9_le (b : Byte) : (zext9 b).toNat ≤ 256 := Nat.le_of_lt (zext9_lt b)

theorem add_two_le {p : PcWord} (h : p.toNat + 2 ≤ 256) : (p + 2).toNat ≤ 256 := by
  simp [BitVec.toNat_add]; omega

theorem add_three_le {p : PcWord} (h : p.toNat + 3 ≤ 256) : (p + 3).toNat ≤ 256 := by
  simp [BitVec.toNat_add]; omega

/-- Setting one register leaves the others. -/
theorem set_other (x : Vector Byte Config.nreg) {r : Nat} (hr : r < 8) (v : Byte) :
    ∀ k : Fin 8, k.val ∉ [r] → (x.set r v)[k.val] = x[k.val] := by
  intro k hk
  rw [Vector.getElem_set_ne]
  simp at hk
  omega

/-- All that an instruction can do: fault in CHECK, or commit. -/
theorem exec_cases {i : Instr} {s t : State} (h : exec i s = .next t) : CheckFails s i t ∨ Commits i s t := by
  have go : ∀ {t' : State}, exec i s = .next t' → t = t' := fun e => Host.Outcome.next.inj (h.symm.trans e)
  cases i
  case hlt =>
    obtain rfl := go rfl
    exact .inr ⟨by simp [Instr.regBytes], fun _ _ => rfl, .inl rfl, .inl rfl, .inr ⟨rfl, rfl⟩, fun h => Nat.le_of_succ_le h,
      rfl, rfl, rfl, .inl rfl⟩
  case ret =>
    obtain rfl := go rfl
    exact .inr ⟨by simp [Instr.regBytes], set_other s.x (by omega) _, .inl rfl, .inl rfl, .inl rfl, fun _ => zext9_le _,
      rfl, rfl, rfl, .inl rfl⟩
  case push r =>
    rcases exec_push_cases s r with ⟨hr, e⟩ | ⟨t', e, h'⟩ <;> obtain rfl := go e
    · exact .inr ⟨by simpa [Instr.regBytes], set_other s.x (by omega) _, .inl rfl, .inl rfl, .inl rfl, add_two_le,
        rfl, rfl, rfl, .inr ⟨_, _, rfl, BitVec.isLt _, rfl⟩⟩
    · exact .inl h'
  case pop r =>
    rcases exec_pop_cases s r with ⟨hr, e⟩ | ⟨t', e, h'⟩ <;> obtain rfl := go e
    · refine .inr ⟨by simpa [Instr.regBytes], fun k hk => ?_, .inl rfl, .inl rfl, .inl rfl, add_two_le, rfl, rfl, rfl, .inl rfl⟩
      simp [regsWritten] at hk
      show (Vector.set _ 7 _)[k.val] = _
      rw [Vector.getElem_set_ne, Vector.getElem_set_ne] <;> omega
    · exact .inl h'
  case prn r =>
    rcases exec_prn_cases s r with ⟨hr, e⟩ | ⟨t', e, h'⟩ <;> obtain rfl := go e
    · exact .inr ⟨by simpa [Instr.regBytes], fun _ _ => rfl, .inl rfl, .inr ⟨r, hr, rfl, rfl⟩, .inl rfl, add_two_le,
        rfl, rfl, rfl, .inl rfl⟩
    · exact .inl h'
  case call r =>
    rcases exec_call_cases s r with ⟨hr, -, e⟩ | ⟨t', e, h'⟩ <;> obtain rfl := go e
    · exact .inr ⟨by simpa [Instr.regBytes], set_other s.x (by omega) _, .inl rfl, .inl rfl, .inl rfl, fun _ => zext9_le _,
        rfl, rfl, rfl, .inr ⟨_, _, rfl, BitVec.isLt _, rfl⟩⟩
    · exact .inl h'
  case jmp r =>
    rcases exec_jmp_cases s r with ⟨hr, e⟩ | ⟨t', e, h'⟩ <;> obtain rfl := go e
    · exact .inr ⟨by simpa [Instr.regBytes], fun _ _ => rfl, .inl rfl, .inl rfl, .inl rfl, fun _ => zext9_le _,
        rfl, rfl, rfl, .inl rfl⟩
    · exact .inl h'
  case jeq r =>
    rcases exec_jeq_cases s r with ⟨hr, e⟩ | ⟨t', e, h'⟩ <;> obtain rfl := go e
    · refine .inr ⟨by simpa [Instr.regBytes], fun _ _ => rfl, .inl rfl, .inl rfl, .inl rfl, fun hl => ?_,
        rfl, rfl, rfl, .inl rfl⟩
      dsimp only
      split
      · exact zext9_le _
      · exact add_two_le hl
    · exact .inl h'
  case jne r =>
    rcases exec_jne_cases s r with ⟨hr, e⟩ | ⟨t', e, h'⟩ <;> obtain rfl := go e
    · refine .inr ⟨by simpa [Instr.regBytes], fun _ _ => rfl, .inl rfl, .inl rfl, .inl rfl, fun hl => ?_,
        rfl, rfl, rfl, .inl rfl⟩
      dsimp only
      split
      · exact zext9_le _
      · exact add_two_le hl
    · exact .inl h'
  case ldi r imm =>
    rcases exec_ldi_cases s r imm with ⟨hr, e⟩ | ⟨t', e, h'⟩ <;> obtain rfl := go e
    · exact .inr ⟨by simpa [Instr.regBytes], set_other s.x hr _, .inl rfl, .inl rfl, .inl rfl, add_three_le,
        rfl, rfl, rfl, .inl rfl⟩
    · exact .inl h'
  case add a b =>
    rcases exec_add_cases s a b with ⟨ha, hb, e⟩ | ⟨t', e, h'⟩ <;> obtain rfl := go e
    · exact .inr ⟨by simp [Instr.regBytes, ha, hb], set_other s.x ha _, .inl rfl, .inl rfl, .inl rfl, add_three_le,
        rfl, rfl, rfl, .inl rfl⟩
    · exact .inl h'
  case mul a b =>
    rcases exec_mul_cases s a b with ⟨ha, hb, e⟩ | ⟨t', e, h'⟩ <;> obtain rfl := go e
    · exact .inr ⟨by simp [Instr.regBytes, ha, hb], set_other s.x ha _, .inl rfl, .inl rfl, .inl rfl, add_three_le,
        rfl, rfl, rfl, .inl rfl⟩
    · exact .inl h'
  case cmp a b =>
    rcases exec_cmp_cases s a b with ⟨ha, hb, e⟩ | ⟨t', e, h'⟩ <;> obtain rfl := go e
    · exact .inr ⟨by simp [Instr.regBytes, ha, hb], fun _ _ => rfl, .inr ⟨_, _, rfl⟩, .inl rfl, .inl rfl, add_three_le,
        rfl, rfl, rfl, .inl rfl⟩
    · exact .inl h'

end Sys2Proof.Machine
end

