-- ==== Sys2Proof/Laws/Fetch.lean ====
section
/-! SUPPORT. What the fetch and decode phases do: the bytes they read, and the fault they meet first. -/

namespace Sys2Proof.Machine

theorem fetchByte_of_lt {s : State} {a : Nat} (h : a < 256) : fetchByte s a = .ok (s.mem.read a) :=
  if_neg (Nat.not_le.2 h)

theorem fetchByte_of_ge {s : State} {a : Nat} (h : 256 ≤ a) :
    fetchByte s a = .error (.memoryAddress (BitVec.ofNat 9 a)) := if_pos h

@[simp] theorem bytesAt_length (m : Memory) (a n : Nat) : (m.bytesAt a n).length = n := by
  induction n generalizing a with
  | zero => rfl
  | succ n ih => simp [Memory.bytesAt, ih]

/-- All the bytes are cells: they are read. -/
theorem fetchFrom_ok {s : State} {a n : Nat} (h : a + n ≤ 256) : fetchFrom s a n = .ok (s.mem.bytesAt a n) := by
  induction n generalizing a with
  | zero => rfl
  | succ n ih =>
    simp only [fetchFrom, fetchByte_of_lt (s := s) (a := a) (by omega), ih (a := a + 1) (by omega)]
    rfl

/-- Not all the bytes are cells: the first address that is none is reported. -/
theorem fetchFrom_error {s : State} {a n : Nat} (ha : a ≤ 256) (h : 256 < a + n) :
    fetchFrom s a n = .error (.memoryAddress 256) := by
  induction n generalizing a with
  | zero => omega
  | succ n ih =>
    rcases Nat.lt_or_ge a 256 with hlt | hge
    · simp only [fetchFrom, fetchByte_of_lt hlt, ih (a := a + 1) (by omega) (by omega)]
    · obtain rfl : a = 256 := by omega
      simp only [fetchFrom, fetchByte_of_ge (s := s) (a := 256) (by omega)]
      rfl

theorem window_ge (w : FetchWindow) (o : Op) : o.nops ≤ operandWindow w o := by
  cases w <;> cases o <;> decide

theorem window_le (w : FetchWindow) (o : Op) : operandWindow w o ≤ 2 := by
  cases w <;> cases o <;> decide

/-- `pc` is past the memory. -/
theorem fetchInstr_past {s : State} (h : 256 ≤ s.pc.toNat) : fetchInstr s = .error (.memoryAddress s.pc) := by
  simp [fetchInstr, fetchByte_of_ge h]

/-- The opcode byte is illegal. -/
theorem fetchInstr_unknown {s : State} (h : s.pc.toNat < 256) (ho : decodeOpcode (s.mem.read s.pc.toNat) = none) :
    fetchInstr s = .error (.unknownOpcode (s.mem.read s.pc.toNat)) := by
  simp [fetchInstr, fetchByte_of_lt h, ho]

/-- The operand window goes past the memory. -/
theorem fetchInstr_operands {s : State} {o : Op} (h : s.pc.toNat < 256)
    (ho : decodeOpcode (s.mem.read s.pc.toNat) = some o)
    (hw : 256 ≤ s.pc.toNat + operandWindow s.params.fetchWindow o) : fetchInstr s = .error (.memoryAddress 256) := by
  have := window_le s.params.fetchWindow o
  simp [fetchInstr, fetchByte_of_lt h, ho,
    fetchFrom_error (s := s) (a := s.pc.toNat + 1) (n := operandWindow s.params.fetchWindow o) (by omega) (by omega)]

/-- The fetch succeeds. -/
theorem fetchInstr_of_fits {s : State} {o : Op} (ho : decodeOpcode (s.mem.read s.pc.toNat) = some o)
    (hw : s.pc.toNat + operandWindow s.params.fetchWindow o < 256) :
    fetchInstr s = .ok (assemble o
      (operand (s.mem.bytesAt (s.pc.toNat + 1) (operandWindow s.params.fetchWindow o)) 0)
      (operand (s.mem.bytesAt (s.pc.toNat + 1) (operandWindow s.params.fetchWindow o)) 1)) := by
  simp [fetchInstr, fetchByte_of_lt (s := s) (a := s.pc.toNat) (by omega), ho,
    fetchFrom_ok (s := s) (a := s.pc.toNat + 1) (n := operandWindow s.params.fetchWindow o) (by omega)]

/-- The fetch succeeds, and the operands are the bytes after the opcode. -/
theorem fetchInstr_reads {s : State} {o : Op} (ho : decodeOpcode (s.mem.read s.pc.toNat) = some o)
    (hw : s.pc.toNat + operandWindow s.params.fetchWindow o < 256) :
    fetchInstr s = .ok (assemble o (s.mem.read (s.pc.toNat + 1)) (s.mem.read (s.pc.toNat + 2))) := by
  rw [fetchInstr_of_fits ho hw]
  cases s.params.fetchWindow <;> cases o <;> rfl

/-- All that the fetch and decode phases can do. -/
theorem fetchInstr_cases (s : State) :
    (256 ≤ s.pc.toNat ∧ fetchInstr s = .error (.memoryAddress s.pc)) ∨
    (s.pc.toNat < 256 ∧ decodeOpcode (s.mem.read s.pc.toNat) = none ∧
      fetchInstr s = .error (.unknownOpcode (s.mem.read s.pc.toNat))) ∨
    (s.pc.toNat < 256 ∧ fetchInstr s = .error (.memoryAddress 256)) ∨
    (∃ i, s.fits i ∧ s.mem.read s.pc.toNat = i.op.code ∧ fetchInstr s = .ok i) := by
  rcases Nat.lt_or_ge s.pc.toNat 256 with h | h
  · cases ho : decodeOpcode (s.mem.read s.pc.toNat) with
    | none => exact .inr (.inl ⟨h, rfl, fetchInstr_unknown h ho⟩)
    | some o =>
      rcases Nat.lt_or_ge (s.pc.toNat + operandWindow s.params.fetchWindow o) 256 with hw | hw
      · refine .inr (.inr (.inr ⟨_, ?_, ?_, fetchInstr_of_fits ho hw⟩))
        · simpa [State.fits] using hw
        · simpa using decodeOpcode_eq_some.1 ho
      · exact .inr (.inr (.inl ⟨h, fetchInstr_operands h ho hw⟩))
  · exact .inl ⟨h, fetchInstr_past h⟩

/-- An instruction that fits ends at most at the end of the memory. -/
theorem fits_len {s : State} {i : Instr} (h : s.fits i) : s.pc.toNat + i.op.len ≤ 256 := by
  have := window_ge s.params.fetchWindow i.op
  unfold State.fits at h
  unfold Op.len
  omega

end Sys2Proof.Machine
end

