-- ==== Sys2Proof/Laws/PerInstr.lean ====
section
/-! SUPPORT. Facts of the encoding proved instruction by instruction. -/

namespace Sys2Proof.Laws.Regfields

/-- The bytes WellFormed checks are the register fields of the row's format, in the order of 40_sequencer.md R85: byte `k` of
the encoding for each `k` of `regfields`. -/
def Statement (i : Instr) : Prop := i.regBytes = i.op.format.regFields.map fun k => operand (encode i) k

theorem hlt : Statement .hlt := rfl
theorem ret : Statement .ret := rfl
theorem push (r : Byte) : Statement (.push r) := rfl
theorem pop (r : Byte) : Statement (.pop r) := rfl
theorem prn (r : Byte) : Statement (.prn r) := rfl
theorem call (r : Byte) : Statement (.call r) := rfl
theorem jmp (r : Byte) : Statement (.jmp r) := rfl
theorem jeq (r : Byte) : Statement (.jeq r) := rfl
theorem jne (r : Byte) : Statement (.jne r) := rfl
theorem ldi (r imm : Byte) : Statement (.ldi r imm) := rfl
theorem add (a b : Byte) : Statement (.add a b) := rfl
theorem mul (a b : Byte) : Statement (.mul a b) := rfl
theorem cmp (a b : Byte) : Statement (.cmp a b) := rfl

end Sys2Proof.Laws.Regfields
end

