-- ==== Sys2Proof/Laws/Step.lean ====
section
/-! SUPPORT. What a step does in each of the situations of 40_sequencer.md R83, and all that it can do. -/

namespace Sys2Proof.Machine

variable {s : State}

theorem step_reset (h : s.pins.rst = true) : step s = .next (loadPort (holdInReset s)) := if_pos h

theorem step_release (h : s.pins.rst = false) (hr : s.run = .inReset) : step s = .next (releaseReset s) := by
  simp [step, h, hr]

theorem step_still (h : s.pins.rst = false) (hr : s.run = .halted ∨ s.run = .faulted) : step s = .next s := by
  rcases hr with hr | hr <;> simp [step, h, hr]

theorem step_ok {i : Instr} (h : s.ready) (hf : fetchInstr s = .ok i) : step s = exec i s := by
  simp [step, h.1, h.2, hf]

theorem step_error {c : FaultCause} (h : s.ready) (hf : fetchInstr s = .error c) : step s = .next (raise c s) := by
  simp [step, h.1, h.2, hf]

/-- A fault of the fetch and decode phases. -/
def FetchFault (c : FaultCause) : Prop := (∃ a, c = .memoryAddress a) ∨ ∃ b, c = .unknownOpcode b

/-- All that a step can do: hold in reset, release, stay, fault in the fetch or decode phase, or run the instruction fetched. -/
theorem step_cases {t : State} (h : step s = .next t) :
    (s.pins.rst = true ∧ t = loadPort (holdInReset s)) ∨
    (s.pins.rst = false ∧ s.run = .inReset ∧ t = releaseReset s) ∨
    (s.pins.rst = false ∧ (s.run = .halted ∨ s.run = .faulted) ∧ t = s) ∨
    (s.ready ∧ ∃ c, FetchFault c ∧ t = raise c s) ∨
    (s.ready ∧ ∃ i, s.fits i ∧ s.mem.read s.pc.toNat = i.op.code ∧ exec i s = .next t) := by
  rcases Bool.eq_false_or_eq_true s.pins.rst with hp | hp
  · exact .inl ⟨hp, (Host.Outcome.next.inj (h.symm.trans (step_reset hp)))⟩
  · cases hr : s.run with
    | inReset => exact .inr (.inl ⟨hp, rfl, Host.Outcome.next.inj (h.symm.trans (step_release hp hr))⟩)
    | halted => exact .inr (.inr (.inl ⟨hp, .inl rfl, Host.Outcome.next.inj (h.symm.trans (step_still hp (.inl hr)))⟩))
    | faulted => exact .inr (.inr (.inl ⟨hp, .inr rfl, Host.Outcome.next.inj (h.symm.trans (step_still hp (.inr hr)))⟩))
    | running =>
      have hready : s.ready := ⟨hr, hp⟩
      have fault {c : FaultCause} (hc : FetchFault c) (e : fetchInstr s = .error c) :
          ∃ c, FetchFault c ∧ t = raise c s := ⟨c, hc, Host.Outcome.next.inj (h.symm.trans (step_error hready e))⟩
      rcases fetchInstr_cases s with ⟨-, e⟩ | ⟨-, -, e⟩ | ⟨-, e⟩ | ⟨i, hf, hb, e⟩
      · exact .inr (.inr (.inr (.inl ⟨hready, fault (.inl ⟨_, rfl⟩) e⟩)))
      · exact .inr (.inr (.inr (.inl ⟨hready, fault (.inr ⟨_, rfl⟩) e⟩)))
      · exact .inr (.inr (.inr (.inl ⟨hready, fault (.inl ⟨_, rfl⟩) e⟩)))
      · exact .inr (.inr (.inr (.inr ⟨hready, i, hf, hb, (step_ok hready e).symm.trans h⟩)))

end Sys2Proof.Machine
end

