-- ==== Sys2Proof/Tests/Slice0.lean ====
section
/-! SUPPORT. Tests. Expected results are those of 95_test_vectors.md (V<n>) or of the rule named; the last part shows, for each
statement with hypotheses, a state and operands that meet them. -/

namespace Sys2Proof.Tests

open Sys2Proof.Machine

/-- `State.reset` with `pc` and the bytes at it. -/
def at' (pc : PcWord) (bs : List Byte) : State := { State.reset.storeBytes pc.toNat bs with pc := pc }

/-- The state after one step. -/
def after (s : State) : State :=
  match step s with
  | .next t => t
  | .fault _ => s
  | .refused _ => s

/-- The next state of an outcome that has one. -/
def nextOf : Result → Option State
  | .next t => some t
  | .fault _ => none
  | .refused _ => none

/-- A state whose fetch window is `always3`. -/
def wide (s : State) : State := { s with params := { s.params with fetchWindow := .always3 } }

/-- A state in another run state. -/
def inRun (r : RunState) (s : State) : State := s.setRun r

/-- A state with `rst = 1`. -/
def resetting (s : State) : State := s.withPins Pins.held

/-! ### Well-formedness: an ill-formed term for each register field is refused -/

theorem test_wf_refuses : [Instr.push 8, .pop 8, .prn 8, .call 8, .jmp 8, .jeq 8, .jne 8, .ldi 8 0, .add 8 0, .add 0 8, .mul 8 0,
    .mul 0 8, .cmp 8 0, .cmp 0 255].all (fun i => !i.wf) = true := by decide

theorem test_wf_accepts : [Instr.hlt, .ret, .push 7, .ldi 7 255, .add 7 7].all (·.wf) = true := by decide

/-! ### Decoding: words written out from 30_encoding.md R64 and R67 -/

theorem test_decode_system : decode [0b00000001] = .ok (.hlt, []) ∧ decode [0b01000111, 0b00000011] = .ok (.prn 3, []) := by decide

theorem test_decode_alu : decode [0b10100000, 0b00000001, 0b00000010] = .ok (.add 1 2, []) ∧
    decode [0b10100010, 0b00000001, 0b00000010] = .ok (.mul 1 2, []) ∧
    decode [0b10100111, 0b00000001, 0b00000010] = .ok (.cmp 1 2, []) := by decide

theorem test_decode_stack : decode [0b10000010, 0b00000101, 0b11111111] = .ok (.ldi 5 255, []) ∧
    decode [0b01000101, 0b00000110] = .ok (.push 6, []) ∧ decode [0b01000110, 0b00000111] = .ok (.pop 7, []) := by decide

theorem test_decode_control : decode [0b01010000, 0b00000001] = .ok (.call 1, []) ∧
    decode [0b00010001, 0b00000001] = .ok (.ret, [0b00000001]) ∧ decode [0b01010100, 0b00000010] = .ok (.jmp 2, []) ∧
    decode [0b01010101, 0b00000011] = .ok (.jeq 3, []) ∧ decode [0b01010110, 0b00000100] = .ok (.jne 4, []) := by decide

/-- 30_encoding.md R65 (a register byte is not masked), R69; V57, V58. -/
theorem test_decode_rejects : decode [0xA1, 0, 1] = .error (.unknownOpcode 0xA1) ∧ decode [0] = .error (.unknownOpcode 0) ∧
    decode [0xFF] = .error (.unknownOpcode 255) ∧ decode [0x82, 0] = .error (.truncated .ldi) ∧
    decode [0x54, 0x08] = .ok (.jmp 8, []) := by decide

/-- The opcode table's numbering: the first byte is bits 7:0. -/
theorem test_decodeTableWord : decodeTableWord 24 0xFF0582 = some (.ldi 5 255) ∧ decodeTableWord 8 0x01 = some .hlt ∧
    decodeTableWord 16 0x47 = some (.prn 0) ∧ decodeTableWord 8 0x00 = none := by decide

/-- 30_encoding.md R68: the pattern the 13 opcodes happen to follow. -/
theorem test_opcode_pattern : Op.all.all (fun o => (o.code >>> 6).toNat == o.nops && o.code.getLsbD 5 == o.aluTag.isSome &&
    o.code.getLsbD 4 == [Op.ret, .call, .jmp, .jeq, .jne].contains o) = true := by decide

theorem test_withFetchWord : (after (State.reset.withFetchWord 24 0xFF0582)).x[5] = 255 ∧
    (after (State.reset.withFetchWord 8 0x01)).run = .halted := by decide

/-! ### One step of each instruction -/

/-- V5, V9 (CMP alone writes the flag). -/
theorem test_add : let t := after (((at' 0 [0xA0, 0, 1]).setReg 0 200).setReg 1 100 |>.setFl true)
    t.x[0] = 44 ∧ t.x[1] = 100 ∧ t.fl = true ∧ t.pc = 3 := by decide
/-- V8. -/
theorem test_add_sp : (after ((at' 0 [0xA0, 7, 1]).setReg 1 12)).x[7] = 0 := by decide
/-- V14. -/
theorem test_mul : (after (((at' 0 [0xA2, 0, 1]).setReg 0 255).setReg 1 255)).x[0] = 1 := by decide
/-- V16. -/
theorem test_mul_same : (after ((at' 0 [0xA2, 3, 3]).setReg 3 15)).x[3] = 225 := by decide
/-- V17. -/
theorem test_cmp_equal : let t := after (((at' 0 [0xA7, 2, 3]).setReg 2 3).setReg 3 3); t.fl = true ∧ t.pc = 3 := by decide
/-- V18. -/
theorem test_cmp_differ : (after ((((at' 0 [0xA7, 2, 3]).setReg 2 3).setReg 3 4).setFl true)).fl = false := by decide
/-- V36. -/
theorem test_ldi : let t := after (at' 0 [0x82, 5, 0xFF]); t.x[5] = 255 ∧ t.pc = 3 := by decide
/-- V37. -/
theorem test_ldi_sp : (after (at' 0 [0x82, 7, 0x10])).x[7] = 16 := by decide
/-- V41. -/
theorem test_push : let t := after (((at' 0 [0x45, 0]).setReg 0 42).setReg 7 0)
    t.x[7] = 0xFF ∧ t.mem.read 0xFF = 42 ∧ t.pc = 2 := by decide
/-- V42. -/
theorem test_push_sp : let t := after (at' 0 [0x45, 7]); t.x[7] = 0xF3 ∧ t.mem.read 0xF3 = 0xF3 := by decide
/-- V45. -/
theorem test_pop : let t := after (((at' 0 [0x46, 1]).storeBytes 0xFF [9]).setReg 7 0xFF)
    t.x[1] = 9 ∧ t.x[7] = 0 ∧ t.pc = 2 := by decide
/-- V46. -/
theorem test_pop_sp : (after (((at' 0 [0x46, 7]).storeBytes 0xF0 [0x20]).setReg 7 0xF0)).x[7] = 0x21 := by decide
/-- V26. -/
theorem test_jmp : (after ((at' 5 [0x54, 1]).setReg 1 20)).pc = 20 := by decide
/-- V20. -/
theorem test_jeq_taken : (after (((at' 40 [0x55, 2]).setReg 2 30).setFl true)).pc = 30 := by decide
/-- V25: the fall-through does not wrap. -/
theorem test_jeq_end : let t := after (at' 254 [0x55, 2]); t.pc = 256 ∧ t.run = .running := by decide
/-- V22. -/
theorem test_jne_taken : (after ((at' 40 [0x56, 2]).setReg 2 30)).pc = 30 := by decide
/-- V23. -/
theorem test_jne_not_taken : (after (((at' 40 [0x56, 2]).setReg 2 30).setFl true)).pc = 42 := by decide
/-- V2. -/
theorem test_call : let t := after ((at' 10 [0x50, 1]).setReg 1 20)
    t.pc = 20 ∧ t.x[7] = 0xF3 ∧ t.mem.read 0xF3 = 12 := by decide
/-- V30. -/
theorem test_call_sp : let t := after (at' 10 [0x50, 7]); t.pc = 243 ∧ t.mem.read 0xF3 = 12 := by decide
/-- V34. -/
theorem test_ret : let t := after (((at' 20 [0x11]).storeBytes 0xFF [7]).setReg 7 0xFF); t.pc = 7 ∧ t.x[7] = 0 := by decide
/-- V35. -/
theorem test_ret_empty : let t := after ((at' 20 [0x11]).storeBytes 0xF4 [0x33]); t.pc = 51 ∧ t.x[7] = 0xF5 := by decide
/-- V50. -/
theorem test_hlt : let t := after (at' 255 [0x01]); t.run = .halted ∧ t.pc = 255 := by decide
/-- V54. -/
theorem test_prn : let s := at' 0 [0x47, 7]
    (after s).out = [244] ∧ (after s).pc = 2 ∧ (ports s (after s)).outValid = true := by decide

/-! ### Faults -/

/-- The fault record of a step, as numbers, and the run state. -/
def faultOf (s : State) : BitVec 2 × BitVec 2 × PcWord × BitVec 9 × RunState :=
  let t := after s
  (t.fault.code.bits, t.fault.kind.bits, t.fault.pc, t.fault.info, t.run)

/-- V10, V11: operand a is checked first. -/
theorem test_fault_register : faultOf (at' 0 [0xA0, 0, 8]) = (2, 2, 0, 8, .faulted) ∧
    faultOf (at' 0 [0xA0, 9, 8]) = (2, 2, 0, 9, .faulted) := by decide
/-- V24: also when the jump is not taken. -/
theorem test_fault_jeq : faultOf (at' 40 [0x55, 9]) = (2, 2, 40, 9, .faulted) := by decide
/-- V12, V59. -/
theorem test_fault_fetch : faultOf (at' 254 [0xA0, 0]) = (2, 1, 254, 256, .faulted) ∧
    faultOf (at' 256 []) = (2, 1, 256, 256, .faulted) := by decide
/-- 60_exceptions.md R132: the fetch check comes before the register check. -/
theorem test_fault_order : faultOf (at' 254 [0x82, 9]) = (2, 1, 254, 256, .faulted) := by decide
/-- V31, V32. -/
theorem test_fault_call : faultOf (at' 254 [0x50, 1]) = (2, 3, 254, 256, .faulted) ∧
    faultOf (at' 255 [0x50]) = (2, 1, 255, 256, .faulted) := by decide
/-- V51, V52. -/
theorem test_fault_always3 : faultOf (wide (at' 255 [0x01])) = (2, 1, 255, 256, .faulted) ∧
    faultOf (wide (at' 254 [0x45, 0])) = (2, 1, 254, 256, .faulted) := by decide
/-- V56, V57. -/
theorem test_fault_opcode : faultOf (at' 0 []) = (1, 0, 0, 0, .faulted) ∧
    faultOf (at' 0 [0xA1, 0, 1]) = (1, 0, 0, 161, .faulted) := by decide
/-- 60_exceptions.md R131: nothing but the record and `run` changes. -/
theorem test_fault_precise : let s := at' 0 [0x45, 8]
    after s = { s with run := .faulted, fault := { code := .outOfRange, kind := .registerIndex, pc := 0, info := 8 } } := by decide

/-! ### The host's side -/

/-- 30_encoding.md R73, 92_eei_decisions.md D15. -/
theorem test_parseLine : parseLine "10000010 # LDI R0 8".toList = .ok (some 130) ∧ parseLine "  # only a comment".toList = .ok none ∧
    parseLine "1000001".toList = .error .badLine ∧ parseLine "1000001x".toList = .error .badLine := by decide
/-- V1, its first lines. -/
theorem test_loadProgram : loadProgram (some "10000010 # LDI R0 8\n00000000\n\n00001000\n".toList) = .ok [0x82, 0, 8] ∧
    loadProgram none = .error .programNotFound := by decide
/-- 60_exceptions.md R139. -/
theorem test_renderOut : renderOut [244, 0] = ['2', '4', '4', '\n', '0', '\n'] := by decide
/-- 10_state.md R36: `dbg_m` past the end of memory is 0. -/
theorem test_dbg : (at' 255 [0x01]).dbgMem 0 = 1 ∧ (at' 255 [0x01]).dbgMem 1 = 0 := by decide
/-- Memory keeps its canonical form: writing what an unlisted cell reads as removes the entry. -/
theorem test_memory_canonical : Memory.write (Memory.write (Memory.write [] 5 1) 3 2) 5 0 = [(3, 2)] := by decide

/-! ### States and operands that meet the hypotheses of the statements -/

theorem test_witness_ResetFromAnyState : (resetting State.reset).pins.rst = true ∧ (resetting State.reset).pins.ldEn = false ∧
    (State.reset.withPins (Pins.load 255 1)).pins.rst = true ∧ (State.reset.withPins (Pins.load 255 1)).pins.ldEn = true ∧
    (State.reset.withPins (Pins.load 255 1)).mem.wf ∧
    (inRun .inReset State.reset).pins.rst = false ∧ (inRun .inReset State.reset).run = .inReset := by decide

theorem test_witness_LoadPortIsIgnoredInARun : (at' 0 [0x01]).pins.rst = false := by decide

theorem test_witness_BootLoadsTheImageOnce : (at' 9 [1]).mem.wf ∧ (List.replicate 256 (1 : Byte)).length ≤ 256 ∧
    ([] : List Byte).length ≤ 256 := ⟨by decide, by rw [List.length_replicate], by decide⟩

theorem test_witness_RefusedLoadExecutesNothing : loadProgram none = .error .programNotFound ∧
    loadProgram (some "2".toList) = .error .badLine := by decide

/-- A line of each kind, and each byte has its digits: both ends of the range. -/
theorem test_witness_ProgramLineGivesItsByte : (∀ ch ∈ [' ', '\t'] ++ [' '], ch.isWhitespace = true) ∧
    binaryDigits 0 = "00000000".toList ∧ binaryDigits 130 = "10000010".toList ∧ binaryDigits 255 = "11111111".toList ∧
    ∀ b, parseLine "2".toList ≠ .ok b := by
  refine ⟨fun ch h => ?_, by decide, by decide, by decide, fun b h => ?_⟩
  · rcases List.mem_append.1 h with h | h <;> simp at h <;> rcases h with rfl | rfl <;> rfl
  · exact absurd ((by decide : parseLine "2".toList = .error .badLine).symm.trans h) (by simp)

/-- An accepted source, one with a bad line, and one of 257 bytes. -/
theorem test_witness_SourceGivesItsImageOrIsRefused :
    (["10000010".toList, []].map parseLine = [some (130 : Byte), none].map .ok ∧ ∀ l ∈ ["10000010".toList, []], '\n' ∉ l) ∧
    parseLine "2".toList = .error .badLine ∧
    ∃ bs : List (Option Byte), (List.replicate 257 "00000001".toList).map parseLine = bs.map .ok ∧ 256 < (bs.filterMap id).length :=
  ⟨by decide, by decide, List.replicate 257 (some 1), by rw [List.map_replicate, List.map_replicate]; rfl, by
    rw [List.filterMap_replicate_of_some (by rfl), List.length_replicate]; omega⟩

theorem test_witness_StepRunsTheDecodedInstruction :
    ((at' 0 [0xA0, 0, 1]).ready ∧ decode ((at' 0 [0xA0, 0, 1]).mem.bytesAt 0 3) = .ok (.add 0 1, []) ∧
      (at' 0 [0xA0, 0, 1]).fits (.add 0 1)) ∧
    ((at' 255 [0x01]).ready ∧ decode ((at' 255 [0x01]).mem.bytesAt 255 1) = .ok (.hlt, []) ∧ (at' 255 [0x01]).fits .hlt) :=
  ⟨⟨by decide, by decide, by unfold State.fits; decide⟩, ⟨by decide, by decide, by unfold State.fits; decide⟩⟩

theorem test_witness_StepChecksInOrder :
    ((at' 256 []).ready ∧ 256 ≤ (at' 256 []).pc.toNat) ∧
    ((at' 255 [0]).ready ∧ (at' 255 [0]).pc.toNat < 256 ∧ decodeOpcode ((at' 255 [0]).mem.read 255) = none) ∧
    ((at' 254 [0xA0]).ready ∧ decodeOpcode ((at' 254 [0xA0]).mem.read 254) = some .add ∧ 2 ≤ Op.add.nops ∧ 256 ≤ 254 + 2 ∧
      ∀ j : Nat, 1 ≤ j → j < 2 → 254 + j < 256) ∧
    ((wide (at' 255 [1])).ready ∧ (wide (at' 255 [1])).params.fetchWindow = .always3 ∧
      decodeOpcode ((wide (at' 255 [1])).mem.read 255) = some .hlt ∧ ∀ j : Nat, 1 ≤ j → j < 1 → 255 + j < 256) :=
  ⟨by decide, by decide, ⟨by decide, by decide, by decide, by decide, by omega⟩, ⟨by decide, by decide, by decide, by omega⟩⟩

theorem test_witness_OpcodesOutsideTheMapFault :
    (0 : Byte).toNat ∉ [1, 17, 69, 70, 71, 80, 84, 85, 86, 130, 160, 162, 167] ∧ (at' 255 [0]).ready ∧
      (at' 255 [0]).mem.read 255 = 0 ∧ (at' 255 [0]).pc.toNat < 256 ∧
      (167 : Byte).toNat ∈ [1, 17, 69, 70, 71, 80, 84, 85, 86, 130, 160, 162, 167] := by decide

theorem test_witness_Always3WindowFaultsNearTheEnd : ∀ p ∈ [(254 : PcWord), 255], let s := wide (at' p [0x11])
    s.ready ∧ s.params.fetchWindow = .always3 ∧ 254 ≤ s.pc.toNat ∧ s.pc.toNat < 256 ∧
      decodeOpcode (s.mem.read s.pc.toNat) = some .ret := by decide

theorem test_witness_IllegalRegisterOperandFaults :
    (Instr.add 9 8).regBytes.find? (fun r => 8 ≤ r.toNat) = some 9 ∧
    (Instr.cmp 7 8).regBytes.find? (fun r => 8 ≤ r.toNat) = some 8 := by decide

theorem test_witness_CheckedInstructionsCommit : (Instr.call 7).wf = true ∧ (at' 253 []).pc.toNat + 2 < 256 ∧
    Instr.hlt.wf = true := by decide

theorem test_witness_EveryStepKeepsInvariant : ∃ s t : State, s.Inv ∧ step s = .next t ∧ s ≠ t :=
  ⟨at' 0 [0x45, 0], _, by constructor <;> decide, rfl, by decide⟩

theorem test_witness_ReachableStatesMeetInvariant : Reachable (after State.reset) ∧ ¬ (after State.reset).safe ∧
    State.reset.safe := ⟨.clock (s := State.reset) Pins.low .reset rfl, by decide, by decide⟩

/-- Each clause of the transitions has a step that meets its hypotheses. -/
theorem test_witness_RunStateTransitions : (∃ t, step (resetting State.reset) = .next t) ∧
    (∃ t, step (inRun .inReset State.reset) = .next t) ∧ (∃ t, step (at' 0 [0x01]) = .next t) ∧
    (∃ t, step (inRun .halted State.reset) = .next t) ∧ (∃ t, step (inRun .faulted State.reset) = .next t) :=
  ⟨⟨_, rfl⟩, ⟨_, rfl⟩, ⟨_, rfl⟩, ⟨_, rfl⟩, ⟨_, rfl⟩⟩

theorem test_witness_HaltedAndFaultedHaveNoStep : (inRun .halted State.reset).ended ∧ (inRun .faulted State.reset).ended ∧
    (inRun .halted State.reset).pins.rst = false ∧
    ∃ t, step (resetting (inRun .faulted State.reset)) = .next t ∧ t.run ≠ (resetting (inRun .faulted State.reset)).run :=
  ⟨by decide, by decide, by decide, _, rfl, by decide⟩

theorem test_witness_FaultsArePrecise : ∃ t, (at' 0 [0x47, 8]).ready ∧ step (at' 0 [0x47, 8]) = .next t ∧ t.run = .faulted :=
  ⟨_, by decide, rfl, by decide⟩

theorem test_witness_FaultRecordIsWrittenOnce :
    (∃ t, step (at' 0 [0]) = .next t ∧ (at' 0 [0]).pins.rst = false ∧ (at' 0 [0]).ready ∧ t.fault ≠ (at' 0 [0]).fault ∧
      t.run = .faulted) ∧ (∃ t, step (resetting State.reset) = .next t) :=
  ⟨⟨_, rfl, by decide, by decide, by decide, by decide⟩, ⟨_, rfl⟩⟩

/-- Only a state that no run reaches holds the code, and in it the hypotheses hold. -/
theorem test_witness_UnsupportedAluOperationIsNeverRaised :
    ∃ s t : State, s.ready ∧ step s = .next t ∧ t.fault.code = .unsupportedAluOp :=
  ⟨{ at' 0 [0x01] with fault := { code := .unsupportedAluOp, kind := .none, pc := 0, info := 0 } }, _, by decide, rfl, by decide⟩

theorem test_witness_OnlyCmpWritesTheFlag : (∃ t, exec (.add 0 7) State.reset = .next t) ∧
    (∀ a b, Instr.add 0 7 ≠ .cmp a b) ∧ (∀ r, Instr.add 0 7 ≠ .jeq r) ∧ (∀ r, Instr.add 0 7 ≠ .jne r) ∧
    (0 : Byte).toNat < 8 ∧ (7 : Byte).toNat < 8 ∧
    (∃ t, step (inRun .halted State.reset) = .next t ∧ (inRun .halted State.reset).run ≠ .running) ∧
    (∃ t, step (resetting State.reset) = .next t ∧ (resetting State.reset).pins.rst = true) :=
  ⟨⟨_, rfl⟩, by simp, by simp, by simp, by decide, by decide, ⟨_, rfl, by decide⟩, ⟨_, rfl, by decide⟩⟩

theorem test_witness_OnlyPrnAppendsToTheOutput : (∃ t, exec (.push 7) State.reset = .next t ∧ ∀ r, Instr.push 7 ≠ .prn r) ∧
    (7 : Byte).toNat < 8 ∧ (∃ t, (at' 0 [0x47, 0]).pins.rst = false ∧ step (at' 0 [0x47, 0]) = .next t) ∧
    (∃ t, (resetting State.reset).pins.rst = true ∧ step (resetting State.reset) = .next t) :=
  ⟨⟨_, rfl, by simp⟩, by decide, ⟨_, by decide, rfl⟩, ⟨_, by decide, rfl⟩⟩

theorem test_witness_RegistersChangeOnlyAsTheTableSays : ∃ t, exec (.pop 3) State.reset = .next t ∧
    (0 : Fin 8).val ∉ regsWritten (.pop 3) := ⟨_, rfl, by decide⟩

theorem test_witness_MemoryChangesOnlyWherePushedTo : ∃ t, State.reset.mem.wf ∧ exec (.push 3) State.reset = .next t ∧
    storeAddr (.push 3) State.reset ≠ some 0xF4 := ⟨_, by decide, rfl, by decide⟩

theorem test_witness_InstructionsLeaveTheRest : ∃ t, exec (.ldi 3 1) State.reset = .next t ∧
    (∀ a b, Instr.ldi 3 1 ≠ .cmp a b) ∧ ∀ r, Instr.ldi 3 1 ≠ .prn r := ⟨_, rfl, by simp, by simp⟩

theorem test_witness_ParametersNeverChange : ∃ t, step (wide (at' 0 [0x47, 0])) = .next t := ⟨_, rfl⟩

theorem test_witness_ReadGivesTheMostRecentWrite : (at' 3 [1, 2]).mem.wf := by decide

/-- A push of `v` to the cell below `sp`, with PRN as the next instruction's first byte. -/
def pushing (v sp : Byte) : State := ((at' 0 [0x45, 0, 0x47]).setReg 0 v).setReg 7 sp

theorem test_witness_FetchSeesThePushedByte_push : ∀ s ∈ [pushing 1 3, pushing 0 3, pushing 5 4],
    s.ready ∧ s.mem.wf ∧ nextOf (exec (.push 0) s) = some (after s) ∧ (after s).ready ∧ (after s).pc.toNat = 2 := by decide

/-- Onto the next opcode: HLT, and a byte that is no opcode; onto the operand of PRN. -/
theorem test_witness_FetchSeesThePushedByte_cells :
    (storeAddr (.push 0) (pushing 1 3) = some 2 ∧ (pushing 1 3).x[0] = 1 ∧ decodeOpcode 1 = some .hlt) ∧
    (storeAddr (.push 0) (pushing 0 3) = some 2 ∧ (pushing 0 3).x[0] = 0 ∧ decodeOpcode 0 = none) ∧
    (storeAddr (.push 0) (pushing 5 4) = some (2 + 1) ∧ decodeOpcode ((after (pushing 5 4)).mem.read 2) = some .prn ∧
      Op.prn.nops = 1 ∧ 2 + Op.prn.nops < 256) := by decide

/-- CALL R7 onto the last cell, with a return address that is RET (it fits there) and one that is PUSH (it does not). -/
theorem test_witness_FetchSeesThePushedByte_call : ∀ p ∈ [((15 : PcWord), Op.ret), (67, .push)],
    let s := (at' p.1 [0x50, 7]).setReg 7 0
    s.ready ∧ s.mem.wf ∧ storeAddr (.call 7) s = some 255 ∧ (7 : Byte).toNat < 8 ∧ s.pc.toNat + 2 < 256 ∧
      nextOf (exec (.call 7) s) = some (after s) ∧ (after s).ready ∧ (after s).pc.toNat = 255 ∧
      decodeOpcode (BitVec.ofNat 8 (s.pc.toNat + 2)) = some p.2 ∧
      (p.2 = .ret ∧ 255 + p.2.nops < 256 ∨ p.2 = .push ∧ ¬ 255 + p.2.nops < 256) := by decide

/-- The clauses of the ADD, MUL, CMP and LDI statements: legal operands at the ends of their range, each illegal one, and each
opcode at 254 and 255. -/
theorem test_witness_three_byte_rules : (0 : Byte).toNat < 8 ∧ (7 : Byte).toNat < 8 ∧ 8 ≤ (8 : Byte).toNat ∧ 8 ≤ (255 : Byte).toNat ∧
    ∀ op ∈ [(0xA0 : Byte), 0xA2, 0xA7, 0x82], ∀ p ∈ [(254 : PcWord), 255],
      (at' p [op]).ready ∧ 254 ≤ (at' p [op]).pc.toNat ∧ (at' p [op]).pc.toNat < 256 ∧ (at' p [op]).mem.read p.toNat = op := by decide

/-- The clauses of the PUSH, POP, PRN, CALL, JMP, JEQ and JNE statements: as above, each opcode at 255. -/
theorem test_witness_two_byte_rules : State.reset.mem.wf ∧ ∀ op ∈ [(0x45 : Byte), 0x46, 0x47, 0x50, 0x54, 0x55, 0x56],
    (at' 255 [op]).ready ∧ (at' 255 [op]).params.fetchWindow = .exactWindow ∧ (at' 255 [op]).pc.toNat = 255 ∧
      (at' 255 [op]).mem.read 255 = op := by decide

/-- The return address of a CALL at 253 fits, at 254 it does not. -/
theorem test_witness_CallPushesAndJumps : (at' 253 []).mem.wf ∧ (at' 253 []).pc.toNat + 2 < 256 ∧ (at' 254 []).pc.toNat = 254 := by decide

/-- The clauses of the RET and HLT statements at the end of memory, in both windows. -/
theorem test_witness_one_byte_rules : (∀ op ∈ [(0x11 : Byte), 0x01],
    (at' 255 [op]).ready ∧ (at' 255 [op]).params.fetchWindow = .exactWindow ∧ (at' 255 [op]).pc.toNat < 256 ∧
      (at' 255 [op]).mem.read 255 = op ∧ (wide (at' 255 [op])).ready ∧ (wide (at' 255 [op])).params.fetchWindow = .always3 ∧
      254 ≤ (wide (at' 255 [op])).pc.toNat ∧ (wide (at' 255 [op])).mem.read 255 = op) ∧
    (at' 256 []).ready ∧ (at' 256 []).pc.toNat = 256 := by decide

theorem test_witness_HltStopsTheCore : (at' 0 []).pins.rst = false ∧
    ∃ t, exec .hlt State.reset = .next t ∧ State.reset.run ≠ .halted ∧ t.run = .halted := ⟨by decide, _, rfl, by decide, by decide⟩

/-- R7 is among the registers PUSH and POP restore. -/
theorem test_witness_PushThenPopRestores : (7 : Byte).toNat < 8 ∧ State.reset.mem.wf := by decide

theorem test_witness_CallThenRetReturns : ∃ t, (7 : Byte).toNat < 8 ∧ (at' 253 []).mem.wf ∧ (at' 253 []).pc.toNat + 2 < 256 ∧
    exec (.call 7) (at' 253 []) = .next t ∧ (t.setPc 9).x[7] = t.x[7] ∧
    (t.setPc 9).mem.read t.x[7].toNat = t.mem.read t.x[7].toNat := ⟨_, by decide, by decide, by decide, rfl, rfl, rfl⟩

end Sys2Proof.Tests
end

section
/-! The equality flag and the output stream (10_state.md R27, R31): who writes them, and that two runs which differ in
nothing else stay alike. -/

namespace Sys2Proof.Machine

/-! ### Faults, the load port and the fetch -/

/-- A CHECK that fails raises some fault, and so leaves all but the fault record and `run`. -/
theorem CheckFails.raised {s t : State} {i : Instr} (h : CheckFails s i t) : ∃ c, t = raise c s := by
  rcases h with ⟨b, -, -, e⟩ | ⟨-, -, e⟩
  · exact ⟨_, e⟩
  · exact ⟨_, e⟩

/-- The load port writes memory only. -/
theorem loadPort_eq (s : State) : loadPort s = { s with mem := (loadPort s).mem } := by
  unfold loadPort
  split <;> rfl

/-- Fetching bytes reads only memory. -/
theorem fetchFrom_congr {s s' : State} (hm : s'.mem = s.mem) (a n : Nat) : fetchFrom s' a n = fetchFrom s a n := by
  induction n generalizing a with
  | zero => rfl
  | succ n ih => simp only [fetchFrom, fetchByte, hm, ih]

/-- The fetch and decode phases read only `pc`, memory and the fetch window. -/
theorem fetchInstr_congr {s s' : State} (hpc : s'.pc = s.pc) (hm : s'.mem = s.mem) (hp : s'.params = s.params) :
    fetchInstr s' = fetchInstr s := by
  simp only [fetchInstr, fetchByte, hpc, hm, hp, fetchFrom_congr hm]

/-! ### What an instruction writes -/

theorem exec_fl_of_ne_cmp {i : Instr} {s t : State} (h : exec i s = .next t) (hi : ∀ a b, i ≠ .cmp a b) :
    t.fl = s.fl := by
  rcases exec_cases h with hc | hc
  · obtain ⟨c, rfl⟩ := hc.raised
    rfl
  · exact hc.fl.resolve_right fun ⟨a, b, e⟩ => hi a b e

theorem exec_out_of_ne_prn {i : Instr} {s t : State} (h : exec i s = .next t) (hi : ∀ r, i ≠ .prn r) :
    t.out = s.out := by
  rcases exec_cases h with hc | hc
  · obtain ⟨c, rfl⟩ := hc.raised
    rfl
  · exact hc.out.resolve_right fun ⟨r, _, e, _⟩ => hi r e

/-- CMP with legal operands. -/
theorem exec_cmp_of_lt {a b : Byte} {s : State} (ha : a.toNat < 8) (hb : b.toNat < 8) :
    exec (.cmp a b) s = .next { s with fl := eqFlag s.x[a.toNat] s.x[b.toNat], pc := s.pc + 3 } :=
  execAlu_equal (tag := .cmp) ha hb rfl

/-- PRN with a legal operand. -/
theorem exec_prn_of_lt {r : Byte} {s : State} (hr : r.toNat < 8) :
    exec (.prn r) s = .next { s with out := s.out ++ [s.x[r.toNat]], pc := s.pc + 2 } := by
  simp only [exec, execPrn]
  exact withReg_of_lt hr

/-! ### Two runs that differ in `fl` and `out` -/

/-- The state with another equality flag and another output stream. -/
abbrev State.withFlOut (s : State) (f : Bool) (o : List Byte) : State := { s with fl := f, out := o }

/-- `t` and `u`, reached from `s` and `s'`, differ in `fl` and `out` at most; `fl` was kept by both or set alike, and the
same bytes were appended to `out`. -/
structure Alike (s s' t u : State) : Prop where
  rest : u = t.withFlOut u.fl u.out
  fl   : (t.fl = s.fl ∧ u.fl = s'.fl) ∨ u.fl = t.fl
  out  : ∃ bs, t.out = s.out ++ bs ∧ u.out = s'.out ++ bs

/-- Both outcomes, reached from `s` and `s'`, are next states, and these are alike. -/
def AlikeOutcomes (s s' : State) (r r' : Result) : Prop :=
  ∃ t u, r = .next t ∧ r' = .next u ∧ Alike s s' t u

/-- Both runs kept `fl` and `out`; where the next states are given as updates, all of it holds by `rfl`. -/
theorem AlikeOutcomes.of_kept {s s' t u : State} (rest : u = t.withFlOut u.fl u.out := by rfl)
    (fl : t.fl = s.fl := by rfl) (fl' : u.fl = s'.fl := by rfl) (out : t.out = s.out := by rfl)
    (out' : u.out = s'.out := by rfl) : AlikeOutcomes s s' (.next t) (.next u) :=
  ⟨t, u, rfl, rfl, rest, .inl ⟨fl, fl'⟩, [], by simpa using out, by simpa using out'⟩

theorem AlikeOutcomes.of_next {s s' t : State} {r r' : Result} (h : AlikeOutcomes s s' r r') (hr : r = .next t) :
    ∃ u, r' = .next u ∧ Alike s s' t u := by
  obtain ⟨t', u, e, e', ha⟩ := h
  obtain rfl : t = t' := Host.Outcome.next.inj (hr.symm.trans e)
  exact ⟨u, e', ha⟩

section
variable {s : State} {f : Bool} {o : List Byte}

theorem raise_alike (c : FaultCause) :
    AlikeOutcomes s (s.withFlOut f o) (.next (raise c s)) (.next (raise c (s.withFlOut f o))) :=
  .of_kept

/-- The register check does not read `fl` or `out`. -/
theorem withReg_alike (b : Byte) {body body' : Fin Config.nreg → Result}
    (h : ∀ k, AlikeOutcomes s (s.withFlOut f o) (body k) (body' k)) :
    AlikeOutcomes s (s.withFlOut f o) (withReg b s body) (withReg b (s.withFlOut f o) body') := by
  rcases Nat.lt_or_ge b.toNat 8 with hb | hb
  · rw [withReg_of_lt hb, withReg_of_lt hb]
    exact h _
  · rw [withReg_of_ge hb, withReg_of_ge hb]
    exact raise_alike _

theorem execAlu_alike (tag : AluTag) (a b : Byte) :
    AlikeOutcomes s (s.withFlOut f o) (execAlu tag a b s) (execAlu tag a b (s.withFlOut f o)) := by
  unfold execAlu withRegs
  refine withReg_alike a fun j => withReg_alike b fun k => ?_
  cases tag with
  | add => exact .of_kept
  | mul => exact .of_kept
  | cmp => exact ⟨_, _, rfl, rfl, rfl, .inr rfl, [], by simp, by simp⟩

/-- A conditional jump on the same condition. -/
theorem branch_alike (taken : Bool) (r : Byte) :
    AlikeOutcomes s (s.withFlOut f o) (branch taken r s) (branch taken r (s.withFlOut f o)) :=
  withReg_alike r fun _ => .of_kept

theorem execCall_alike (r : Byte) :
    AlikeOutcomes s (s.withFlOut f o) (execCall r s) (execCall r (s.withFlOut f o)) := by
  refine withReg_alike r fun k => ?_
  rcases Nat.lt_or_ge (s.pc.toNat + 2) 256 with hp | hp
  · rw [if_neg (Nat.not_le.2 hp), if_neg (Nat.not_le.2 hp)]
    exact .of_kept
  · rw [if_pos hp, if_pos hp]
    exact raise_alike _

/-- No instruction reads `out`, and only JEQ and JNE read `fl`. -/
theorem exec_alike {i : Instr} (hf : ∀ r, i = .jeq r ∨ i = .jne r → f = s.fl) :
    AlikeOutcomes s (s.withFlOut f o) (exec i s) (exec i (s.withFlOut f o)) := by
  unfold exec
  cases i with
  | hlt => exact .of_kept
  | ret => exact .of_kept
  | push r => exact withReg_alike r fun _ => .of_kept
  | pop r => exact withReg_alike r fun _ => .of_kept
  | prn r => exact withReg_alike r fun _ => ⟨_, _, rfl, rfl, rfl, .inl ⟨rfl, rfl⟩, _, rfl, rfl⟩
  | call r => exact execCall_alike r
  | jmp r => exact withReg_alike r fun _ => .of_kept
  | jeq r =>
    obtain rfl := hf r (.inl rfl)
    exact branch_alike s.fl r
  | jne r =>
    obtain rfl := hf r (.inr rfl)
    exact branch_alike (!s.fl) r
  | ldi r imm => exact withReg_alike r fun _ => .of_kept
  | add a b => exact execAlu_alike .add a b
  | mul a b => exact execAlu_alike .mul a b
  | cmp a b => exact execAlu_alike .cmp a b

end

/-- An instruction run with another flag, if it does not read it. -/
theorem exec_withFl {i : Instr} {s t : State} (f : Bool) (h : exec i s = .next t) (hjeq : ∀ r, i ≠ .jeq r)
    (hjne : ∀ r, i ≠ .jne r) :
    ∃ u, exec i { s with fl := f } = .next u ∧ { u with fl := false } = { t with fl := false } := by
  have hf : ∀ r, i = .jeq r ∨ i = .jne r → f = s.fl := fun r hr => (hr.elim (hjeq r) (hjne r)).elim
  obtain ⟨u, hu, ha⟩ := (exec_alike (o := s.out) hf).of_next h
  obtain ⟨bs, htout, huout⟩ := ha.out
  refine ⟨u, hu, ?_⟩
  rw [ha.rest, huout, ← htout]

/-! ### Steps -/

/-- No step with `rst = 0` reads `out`. -/
theorem step_alike {s : State} {o : List Byte} (hp : s.pins.rst = false) :
    AlikeOutcomes s (s.withFlOut s.fl o) (step s) (step (s.withFlOut s.fl o)) := by
  cases hr : s.run with
  | inReset =>
    rw [step_release hp hr, step_release (s := s.withFlOut s.fl o) hp hr]
    exact .of_kept
  | halted =>
    rw [step_still hp (.inl hr), step_still (s := s.withFlOut s.fl o) hp (.inl hr)]
    exact .of_kept
  | faulted =>
    rw [step_still hp (.inr hr), step_still (s := s.withFlOut s.fl o) hp (.inr hr)]
    exact .of_kept
  | running =>
    have hf' : fetchInstr (s.withFlOut s.fl o) = fetchInstr s := fetchInstr_congr rfl rfl rfl
    cases hf : fetchInstr s with
    | error c =>
      rw [step_error ⟨hr, hp⟩ hf, step_error (s := s.withFlOut s.fl o) ⟨hr, hp⟩ (hf'.trans hf)]
      exact raise_alike c
    | ok i =>
      rw [step_ok ⟨hr, hp⟩ hf, step_ok (s := s.withFlOut s.fl o) ⟨hr, hp⟩ (hf'.trans hf)]
      exact exec_alike fun _ _ => rfl

/-- A step from the same state with another output stream does the same to the rest and appends the same bytes. -/
theorem step_withOut {s t : State} (o : List Byte) (hp : s.pins.rst = false) (h : step s = .next t) :
    step { s with out := o } = .next { t with out := o ++ t.out.drop s.out.length } := by
  obtain ⟨u, hu, ha⟩ := (step_alike (o := o) hp).of_next h
  obtain ⟨bs, htout, huout⟩ := ha.out
  have hfl : u.fl = t.fl := ha.fl.elim (fun ⟨h₁, h₂⟩ => h₂.trans h₁.symm) id
  rw [htout, List.drop_left, ← huout, ← hfl]
  exact hu.trans (congrArg _ ha.rest)

/-- With `rst = 0`, a step of a core that is not running changes at most `run`. -/
theorem step_of_not_running {s t : State} (h : step s = .next t) (hr : s.run ≠ .running) (hp : s.pins.rst = false) :
    t = s.setRun t.run := by
  rcases step_cases h with ⟨hp', -⟩ | ⟨-, -, rfl⟩ | ⟨-, -, rfl⟩ | ⟨hready, -⟩ | ⟨hready, -⟩
  · exact absurd (hp.symm.trans hp') Bool.false_ne_true
  · rfl
  · rfl
  · exact absurd hready.1 hr
  · exact absurd hready.1 hr

/-- With `rst = 1`, a step holds the core in reset and writes at most memory. -/
theorem step_of_rst {s t : State} (h : step s = .next t) (hp : s.pins.rst = true) :
    t = { holdInReset s with mem := t.mem } := by
  obtain rfl := Host.Outcome.next.inj (h.symm.trans (step_reset hp))
  exact loadPort_eq _

/-! ### The obligations -/

/-- Settles O24: the frame of `fl`, CMP's equation, and two runs of an instruction side by side. -/
theorem onlyCmpWritesTheFlag : Obligations.OnlyCmpWritesTheFlag := by
  refine ⟨fun i s t h hi => exec_fl_of_ne_cmp h hi, fun a b s ha hb => ⟨_, exec_cmp_of_lt ha hb, ?_⟩,
    fun i s t f h hjeq hjne => exec_withFl f h hjeq hjne, fun s t h hr hp => ?_, fun s t h hp => ?_⟩
  · simp [eqFlag]
  · rw [step_of_not_running h hr hp, setRun_fl]
  · rw [step_of_rst h hp, holdInReset_fl]

/-- Settles O25: the frame of `out`, PRN's equation, and two steps side by side. -/
theorem onlyPrnAppendsToTheOutput : Obligations.OnlyPrnAppendsToTheOutput := by
  refine ⟨fun i s t h hi => exec_out_of_ne_prn h hi, fun r s hr => ⟨_, exec_prn_of_lt hr, rfl⟩,
    fun s t o hp h => step_withOut o hp h, fun s t hp h => ?_⟩
  rw [step_of_rst h hp, holdInReset_out]

end Sys2Proof.Machine
end

section
/-! The opcode bytes (30_encoding.md R67, R69): which bytes are one of the 13, and what every other byte does. -/

namespace Sys2Proof

/-! ### The opcode map -/

theorem Op.mem_all (o : Op) : o ∈ Op.all := by cases o <;> decide

/-- The 13 numbers are the opcode bytes of the rows. -/
theorem mem_opcodes_iff {b : Byte} :
    b.toNat ∈ [1, 17, 69, 70, 71, 80, 84, 85, 86, 130, 160, 162, 167] ↔ ∃ o : Op, b = o.code := by
  have hmap : [1, 17, 69, 70, 71, 80, 84, 85, 86, 130, 160, 162, 167] = Op.all.map fun o => o.code.toNat := rfl
  rw [hmap, List.mem_map]
  constructor
  · rintro ⟨o, -, ho⟩
    exact ⟨o, BitVec.eq_of_toNat_eq ho.symm⟩
  · rintro ⟨o, rfl⟩
    exact ⟨o, Op.mem_all o, rfl⟩

/-- A byte decodes to no row exactly if it is no row's opcode. -/
theorem decodeOpcode_eq_none {b : Byte} : decodeOpcode b = none ↔ ∀ o : Op, b ≠ o.code := by
  simp only [Option.eq_none_iff_forall_ne_some, ne_eq, decodeOpcode_eq_some]

/-! ### Illegal and legal first bytes -/

theorem decode_unknown {b : Byte} (h : decodeOpcode b = none) (rest : List Byte) :
    decode (b :: rest) = .error (.unknownOpcode b) := by
  simp only [decode, h]

/-- No row has more than two operand bytes (30_encoding.md R64). -/
theorem nops_le_two (o : Op) : o.nops ≤ 2 := Machine.window_ge .always3 o

/-- A row's opcode and two bytes after it decode to an instruction of the row. -/
theorem decode_code_cons_cons (o : Op) (b1 b2 : Byte) :
    decode [o.code, b1, b2] = .ok (assemble o b1 b2, [b1, b2].drop o.nops) :=
  decode_cons.2 ⟨o, rfl, nops_le_two o, rfl, rfl⟩

end Sys2Proof

namespace Sys2Proof.Machine

/-- The fault of an illegal opcode byte (60_exceptions.md R127). -/
theorem step_unknown {s : State} (hs : s.ready) (hpc : s.pc.toNat < 256)
    (h : decodeOpcode (s.mem.read s.pc.toNat) = none) :
    step s = .next (s.faultedWith .unknownOpcode .none ((s.mem.read s.pc.toNat).setWidth 9)) :=
  step_error hs (fetchInstr_unknown hpc h)

/-! ### The obligation -/

/-- Settles O11: the listed bytes are the rows' opcodes, and a byte that is no row's opcode fails to decode. -/
theorem opcodesOutsideTheMapFault : Obligations.OpcodesOutsideTheMapFault := by
  intro b
  rw [mem_opcodes_iff]
  constructor
  · intro hb
    have hnone : decodeOpcode b = none := decodeOpcode_eq_none.2 (not_exists.1 hb)
    refine ⟨decode_unknown hnone, fun s hs hpc hread => ?_⟩
    subst hread
    exact step_unknown hs hpc hnone
  · rintro ⟨o, rfl⟩ b1 b2
    exact ⟨_, _, decode_code_cons_cons o b1 b2, by rw [assemble_op]⟩

end Sys2Proof.Machine
end

section
/-! A run that has ended (40_sequencer.md R83, the rows HALTED and FAULTED): no step changes it, and only a reset leaves it. -/

namespace Sys2Proof.Machine

/-- A step that answers the same state makes no transfer on the output port. -/
theorem outValid_self (s : State) : outValid s s = false := decide_eq_false (Nat.lt_irrefl _)

/-- Settles O20: without a reset a step of an ended run answers the same state, so one that changes `run` is a reset. -/
theorem haltedAndFaultedHaveNoStep : Obligations.HaltedAndFaultedHaveNoStep := by
  intro s hs
  refine ⟨fun hp => ⟨step_still hp hs, outValid_self s⟩, fun t h hrun => ?_⟩
  by_contra hp
  have hsame : s = t := Host.Outcome.next.inj ((step_still (Bool.eq_false_of_not_eq_true hp) hs).symm.trans h)
  exact hrun (congrArg State.run hsame.symm)

end Sys2Proof.Machine
end

section
/-! ADD, MUL and CMP (41_alu.md R106 to R108): the register check of the shared form, and the operand fetch near the end of
the memory. -/

namespace Sys2Proof.Machine

/-! ### Faults -/

/-- The fault of an operand window that goes past the memory (40_sequencer.md R85, R86). -/
theorem step_operands_past {s : State} {o : Op} (hs : s.ready) (hpc : s.pc.toNat < 256)
    (hread : s.mem.read s.pc.toNat = o.code) (hw : 256 ≤ s.pc.toNat + operandWindow s.params.fetchWindow o) :
    step s = .next (s.faultedWith .outOfRange .memoryAddress 256) :=
  step_error hs (fetchInstr_operands hpc (decodeOpcode_eq_some.2 hread) hw)

/-- An instruction with two operand bytes faults at 254 and 255, whatever the fetch window. -/
theorem step_three_byte_past {s : State} {o : Op} (ho : o.nops = 2) (hs : s.ready) (hge : 254 ≤ s.pc.toNat)
    (hlt : s.pc.toNat < 256) (hread : s.mem.read s.pc.toNat = o.code) :
    step s = .next (s.faultedWith .outOfRange .memoryAddress 256) := by
  have hwindow := window_ge s.params.fetchWindow o
  exact step_operands_past hs hlt hread (by omega)

/-- The first register operand of an ALU instruction is illegal. -/
theorem execAlu_of_ge_left {tag : AluTag} {a b : Byte} {s : State} (ha : 8 ≤ a.toNat) :
    execAlu tag a b s = .next (s.faultedWith .outOfRange .registerIndex (a.setWidth 9)) := by
  unfold execAlu withRegs
  rw [withReg_of_ge ha, raise_eq]
  rfl

/-- The first register operand of an ALU instruction is legal and the second is not. -/
theorem execAlu_of_ge_right {tag : AluTag} {a b : Byte} {s : State} (ha : a.toNat < 8) (hb : 8 ≤ b.toNat) :
    execAlu tag a b s = .next (s.faultedWith .outOfRange .registerIndex (b.setWidth 9)) := by
  unfold execAlu withRegs
  rw [withReg_of_lt ha, withReg_of_ge hb, raise_eq]
  rfl

/-! ### The equality flag -/

/-- The flag of a compare, as R108 writes it. -/
theorem eqFlag_eq_ite (v w : Byte) : eqFlag v w = if v = w then true else false := by
  unfold eqFlag
  split
  · next h => exact beq_iff_eq.2 h
  · next h => exact beq_eq_false_iff_ne.2 h

/-! ### The obligations -/

/-- Settles O32: ADD is the ALU form with the sum as its result. -/
theorem addRule : Obligations.AddRule := fun _ _ _ =>
  ⟨rfl, fun ha hb => execAlu_result (tag := .add) ha hb rfl, execAlu_of_ge_left (tag := .add),
    execAlu_of_ge_right (tag := .add), step_three_byte_past (o := .add) rfl⟩

/-- Settles O33: MUL is the ALU form with the product as its result. -/
theorem mulRule : Obligations.MulRule := fun _ _ _ =>
  ⟨rfl, fun ha hb => execAlu_result (tag := .mul) ha hb rfl, execAlu_of_ge_left (tag := .mul),
    execAlu_of_ge_right (tag := .mul), step_three_byte_past (o := .mul) rfl⟩

/-- Settles O34: CMP is the ALU form with the equality output, whose flag is the test of the two registers. -/
theorem cmpRule : Obligations.CmpRule := by
  refine fun s a b => ⟨rfl, fun ha hb => ?_, execAlu_of_ge_left (tag := .cmp), execAlu_of_ge_right (tag := .cmp),
    step_three_byte_past (o := .cmp) rfl⟩
  rw [← eqFlag_eq_ite]
  exact exec_cmp_of_lt ha hb

end Sys2Proof.Machine
end

section
/-! LDI and PUSH (42_register_and_stack.md R110, R111): the effect of each with a legal register, the fault of an illegal one,
and the operand fetch at the end of the memory. -/

namespace Sys2Proof.Machine

/-! ### Faults -/

/-- The fault of an illegal register operand, in the terms of the fault record (60_exceptions.md R128, kind 2). -/
theorem withReg_faultedWith_of_ge {b : Byte} {s : State} {body : Fin Config.nreg → Result} (h : 8 ≤ b.toNat) :
    withReg b s body = .next (s.faultedWith .outOfRange .registerIndex (b.setWidth 9)) := withReg_of_ge h

theorem exec_ldi_of_ge {r imm : Byte} {s : State} (hr : 8 ≤ r.toNat) :
    exec (.ldi r imm) s = .next (s.faultedWith .outOfRange .registerIndex (r.setWidth 9)) := by
  simp only [exec, execLdi]
  exact withReg_faultedWith_of_ge hr

theorem exec_push_of_ge {r : Byte} {s : State} (hr : 8 ≤ r.toNat) :
    exec (.push r) s = .next (s.faultedWith .outOfRange .registerIndex (r.setWidth 9)) := by
  simp only [exec, execPush]
  exact withReg_faultedWith_of_ge hr

/-- With the exact fetch window, an instruction with operand bytes faults at 255. -/
theorem step_exactWindow_past {s : State} {o : Op} (ho : 1 ≤ o.nops) (hs : s.ready)
    (hw : s.params.fetchWindow = .exactWindow) (hpc : s.pc.toNat = 255) (hread : s.mem.read s.pc.toNat = o.code) :
    step s = .next (s.faultedWith .outOfRange .memoryAddress 256) := by
  have hwindow : operandWindow s.params.fetchWindow o = o.nops := by rw [hw]; rfl
  exact step_operands_past hs (by omega) hread (by omega)

/-! ### Effects -/

/-- LDI with a legal register. -/
theorem exec_ldi_of_lt {r imm : Byte} {s : State} (hr : r.toNat < 8) :
    exec (.ldi r imm) s = .next { s with x := s.x.set r.toNat imm, pc := s.pc + 3 } := by
  simp only [exec, execLdi]
  exact withReg_of_lt hr

/-- PUSH with a legal register: the byte is read from the registers after the decrement (R92). -/
theorem exec_push_of_lt {r : Byte} {s : State} (hr : r.toNat < 8) :
    exec (.push r) s = .next { s with
      x := s.x.set 7 (s.x[7] - 1)
      mem := s.mem.write (s.x[7] - 1).toNat (s.x.set 7 (s.x[7] - 1))[r.toNat]
      pc := s.pc + 2 } := by
  simp only [exec, execPush]
  rw [withReg_of_lt hr, pushByte_eq]
  rfl

/-! ### The obligations -/

/-- Settles O35: the register check of LDI, passed and failed, and the fetch of its two operand bytes. -/
theorem ldiRule : Obligations.LdiRule := fun _ _ _ =>
  ⟨rfl, exec_ldi_of_lt, exec_ldi_of_ge, step_three_byte_past (o := .ldi) rfl⟩

/-- Settles O36: PUSH is one write to memory, so read after write gives the byte stored and the frame of the others. -/
theorem pushRule : Obligations.PushRule := fun _ _ =>
  ⟨rfl,
    fun hr hwf => ⟨_, exec_push_of_lt hr, rfl, Memory.read_write_same hwf, fun _ ha => Memory.read_write_other hwf ha⟩,
    exec_push_of_ge, step_exactWindow_past (o := .push) (Nat.le_refl 1)⟩

end Sys2Proof.Machine
end

section
/-! JMP, JEQ and JNE (43_control_transfer.md R114 to R116): the jumps through a register, and what the two conditional ones
do with the flag set and with it clear. -/

namespace Sys2Proof.Machine

section
variable {r : Byte} {s : State}

/-! ### The shared form of the conditional jumps -/

theorem branch_taken {taken : Bool} (hr : r.toNat < 8) (h : taken = true) :
    branch taken r s = .next { s with pc := s.x[r.toNat].setWidth 9 } := by
  subst h
  exact withReg_of_lt hr

theorem branch_not_taken {taken : Bool} (hr : r.toNat < 8) (h : taken = false) :
    branch taken r s = .next { s with pc := s.pc + 2 } := by
  subst h
  exact withReg_of_lt hr

/-- The register is checked whether or not the jump is taken (40_sequencer.md R88, decision D4). -/
theorem branch_of_ge {taken : Bool} (hr : 8 ≤ r.toNat) :
    branch taken r s = .next (s.faultedWith .outOfRange .registerIndex (r.setWidth 9)) :=
  withReg_faultedWith_of_ge hr

/-! ### JEQ branches on the flag, JNE on its opposite -/

theorem exec_jeq_eq_branch : exec (.jeq r) s = branch s.fl r s := rfl

theorem exec_jne_eq_branch : exec (.jne r) s = branch (!s.fl) r s := rfl

theorem exec_jeq_of_fl (hr : r.toNat < 8) (hfl : s.fl = true) :
    exec (.jeq r) s = .next { s with pc := s.x[r.toNat].setWidth 9 } :=
  exec_jeq_eq_branch.trans (branch_taken hr hfl)

theorem exec_jeq_of_not_fl (hr : r.toNat < 8) (hfl : s.fl = false) :
    exec (.jeq r) s = .next { s with pc := s.pc + 2 } :=
  exec_jeq_eq_branch.trans (branch_not_taken hr hfl)

theorem exec_jeq_of_ge (hr : 8 ≤ r.toNat) :
    exec (.jeq r) s = .next (s.faultedWith .outOfRange .registerIndex (r.setWidth 9)) :=
  exec_jeq_eq_branch.trans (branch_of_ge hr)

theorem exec_jne_of_fl (hr : r.toNat < 8) (hfl : s.fl = true) :
    exec (.jne r) s = .next { s with pc := s.pc + 2 } :=
  exec_jne_eq_branch.trans (branch_not_taken hr (congrArg not hfl))

theorem exec_jne_of_not_fl (hr : r.toNat < 8) (hfl : s.fl = false) :
    exec (.jne r) s = .next { s with pc := s.x[r.toNat].setWidth 9 } :=
  exec_jne_eq_branch.trans (branch_taken hr (congrArg not hfl))

theorem exec_jne_of_ge (hr : 8 ≤ r.toNat) :
    exec (.jne r) s = .next (s.faultedWith .outOfRange .registerIndex (r.setWidth 9)) :=
  exec_jne_eq_branch.trans (branch_of_ge hr)

/-! ### JMP -/

theorem exec_jmp_of_lt (hr : r.toNat < 8) : exec (.jmp r) s = .next { s with pc := s.x[r.toNat].setWidth 9 } := by
  simp only [exec, execJmp]
  exact withReg_of_lt hr

theorem exec_jmp_of_ge (hr : 8 ≤ r.toNat) :
    exec (.jmp r) s = .next (s.faultedWith .outOfRange .registerIndex (r.setWidth 9)) := by
  simp only [exec, execJmp]
  exact withReg_faultedWith_of_ge hr

end

/-! ### The obligations -/

/-- Settles O39: the register check of JMP, passed and failed, and the fetch of its operand byte. -/
theorem jmpRule : Obligations.JmpRule := fun _ _ =>
  ⟨rfl, exec_jmp_of_lt, exec_jmp_of_ge, step_exactWindow_past (o := .jmp) (Nat.le_refl 1)⟩

/-- Settles O40: JEQ is the branch on the flag, taken or not by the flag's value. -/
theorem jeqRule : Obligations.JeqRule := by
  refine fun s r => ⟨rfl, fun hr => ?_, exec_jeq_of_ge, step_exactWindow_past (o := .jeq) (Nat.le_refl 1)⟩
  split
  · next hfl => exact exec_jeq_of_fl hr hfl
  · next hfl => exact exec_jeq_of_not_fl hr (Bool.eq_false_of_not_eq_true hfl)

/-- Settles O41: JNE is the branch on the opposite of the flag, so for each value of the flag one of JEQ and JNE jumps. -/
theorem jneRule : Obligations.JneRule := by
  refine fun s r => ⟨rfl, fun hr => ?_, fun hr => ⟨fun hfl => ?_, fun hfl => ?_⟩, exec_jne_of_ge,
    step_exactWindow_past (o := .jne) (Nat.le_refl 1)⟩
  · split
    · next hfl => exact exec_jne_of_not_fl hr hfl
    · next hfl => exact exec_jne_of_fl hr (Bool.eq_true_of_not_eq_false hfl)
  · exact ⟨exec_jeq_of_fl hr hfl, exec_jne_of_fl hr hfl⟩
  · exact ⟨exec_jeq_of_not_fl hr hfl, exec_jne_of_not_fl hr hfl⟩

end Sys2Proof.Machine
end

section
/-! PRN (44_system.md R122): the byte appended to the output stream, as the output port shows it, and the faults. -/

namespace Sys2Proof.Machine

/-! ### The output port (40_sequencer.md R96) -/

section
variable {s t : State} {v : Byte}

/-- A step that appends one byte to the output stream makes a transfer. -/
theorem ports_outValid_of_append (h : t.out = s.out ++ [v]) : (ports s t).outValid = true := by
  have hlen : s.out.length < t.out.length := by simp [h]
  exact decide_eq_true hlen

/-- The data of the transfer is the byte appended. -/
theorem ports_outData_of_append (h : t.out = s.out ++ [v]) : (ports s t).outData = v := by
  have hlast : t.out.getLast? = some v := by rw [h, List.getLast?_concat]
  exact congrArg (·.getD 0) hlast

end

/-! ### PRN -/

theorem exec_prn_of_ge {r : Byte} {s : State} (hr : 8 ≤ r.toNat) :
    exec (.prn r) s = .next (s.faultedWith .outOfRange .registerIndex (r.setWidth 9)) := by
  simp only [exec, execPrn]
  exact withReg_faultedWith_of_ge hr

/-- Settles O46: PRN with a legal register is one append to the output stream, which the port shows as one transfer. -/
theorem prnRule : Obligations.PrnRule := fun _ _ =>
  ⟨rfl,
    fun hr => ⟨_, exec_prn_of_lt hr, rfl, ports_outValid_of_append rfl, ports_outData_of_append rfl⟩,
    exec_prn_of_ge, step_exactWindow_past (o := .prn) (Nat.le_refl 1)⟩

end Sys2Proof.Machine
end

section
/-! The precise fault (60_exceptions.md R131): a running core enters FAULTED only by raising a fault from the state before the
step. -/

namespace Sys2Proof.Machine

/-! ### How a running core enters FAULTED -/

section
variable {s t : State}

/-- No committed instruction enters FAULTED: a commit keeps `run`, or it is that of HLT. -/
theorem Commits.run_ne_faulted {i : Instr} (h : Commits i s t) (hs : s.run = .running) : t.run ≠ .faulted := by
  rcases h.run with hrun | ⟨-, rfl⟩
  · simp [hrun, hs]
  · simp

/-- An instruction that leaves a running core in FAULTED has raised a fault in its CHECK phase. -/
theorem exec_raised_of_faulted {i : Instr} (hs : s.run = .running) (h : exec i s = .next t) (ht : t.run = .faulted) :
    ∃ c, t = raise c s := by
  rcases exec_cases h with hcheck | hcommit
  · exact hcheck.raised
  · exact absurd ht (hcommit.run_ne_faulted hs)

/-- A step of a running core into FAULTED raises a fault, from the fetch and decode phases or from the CHECK phase. -/
theorem step_raised_of_faulted (hs : s.ready) (h : step s = .next t) (ht : t.run = .faulted) : ∃ c, t = raise c s := by
  have ⟨hrun, _⟩ := hs
  cases hf : fetchInstr s with
  | error c => exact ⟨c, Host.Outcome.next.inj (h.symm.trans (step_error hs hf))⟩
  | ok i => exact exec_raised_of_faulted hrun ((step_ok hs hf).symm.trans h) ht

end

/-- Settles O21: raising a fault writes the fault record and `run` and nothing else, and records `pc`. -/
theorem faultsArePrecise : Obligations.FaultsArePrecise := by
  intro s t hs h ht
  obtain ⟨c, rfl⟩ := step_raised_of_faulted hs h ht
  exact ⟨raise_x s c, raise_pc s c, raise_fl s c, raise_mem s c, raise_out s c, rfl⟩

end Sys2Proof.Machine
end

section
/-! A refused load (70_reset_and_hazards.md R150): under the levels the host drives, which keep `rst` at 1 and make no load
transfer, the core stays held in reset. -/

namespace Sys2Proof.Machine

/-! ### Steps under driven levels -/

theorem runPins_cons {p : Pins} {ps : List Pins} {s t : State} (h : clock p s = .next t) :
    runPins (p :: ps) s = runPins ps t := by
  simp only [runPins, h]

/-- No load transfer is made under these levels, so nothing is written to memory (10_state.md R38). -/
theorem clock_held (s : State) : clock Pins.held s = .next (holdInReset (s.withPins Pins.held)) :=
  step_reset (s := s.withPins Pins.held) rfl

/-- A core held in reset stays so, with its memory, as long as the host holds it. -/
theorem runPins_replicate_held {s : State} (n : Nat) (hs : s.run = .inReset) :
    ∃ t, runPins (List.replicate n Pins.held) s = .next t ∧ t.run = .inReset ∧ t.mem = s.mem := by
  induction n generalizing s with
  | zero => exact ⟨s, rfl, hs, rfl⟩
  | succ n ih =>
    rw [List.replicate_succ, runPins_cons (clock_held s)]
    exact ih (holdInReset_run _)

/-! ### What the host does with a refused load -/

theorem bootPins_error (e : LoadError) : bootPins (.error e) = [Pins.held] := rfl

/-- Status 0 is that of a halted core only (60_exceptions.md R143). -/
theorem exitStatusAllowed_loadRefused_zero (e : LoadError) : exitStatusAllowed (.loadRefused e) 0 = false := by
  cases e <;> rfl

/-- Settles O5: the first step enters reset from any state, and every later one finds the core there and keeps it. -/
theorem refusedLoadExecutesNothing : Obligations.RefusedLoadExecutesNothing := by
  intro src e h
  rw [h, bootPins_error]
  refine ⟨fun p hp => ?_, fun s n => ?_, exitStatusAllowed_loadRefused_zero e⟩
  · rw [List.mem_singleton.1 hp]
    rfl
  · rw [List.singleton_append, runPins_cons (clock_held s)]
    exact runPins_replicate_held n (holdInReset_run _)

end Sys2Proof.Machine
end

section
/-! Decoding and encoding (30_encoding.md R63, R64, R67, R72): each undoes the other. -/

namespace Sys2Proof

/-- Encoding what `assemble` puts together gives the opcode byte and the operand bytes it was given. -/
theorem encode_assemble {o : Op} {bs : List Byte} (h : o.nops ≤ bs.length) :
    encode (assemble o (operand bs 0) (operand bs 1)) = o.code :: bs.take o.nops := by
  rw [encode, assemble_op, operands_assemble o bs h]

/-- The encoding of an instruction decodes to it and leaves what follows. -/
theorem decode_encode_append (i : Instr) (rest : List Byte) : decode (encode i ++ rest) = .ok (i, rest) := by
  refine decode_cons.2 ⟨i.op, rfl, ?_, (assemble_operands i rest).symm, ?_⟩
  · simp [operands_length]
  · exact (List.drop_left' (operands_length i)).symm

/-- Bytes that decode to an instruction are its encoding and what is left. -/
theorem eq_encode_append_of_decode {bs rest : List Byte} {i : Instr} (h : decode bs = .ok (i, rest)) :
    bs = encode i ++ rest := by
  cases bs with
  | nil => cases h
  | cons b bs =>
    obtain ⟨o, rfl, hlen, rfl, rfl⟩ := decode_cons.1 h
    rw [encode_assemble hlen, List.cons_append, List.take_append_drop]

/-! ### The obligations -/

/-- Settles O8: the two directions of the round trip. -/
theorem decodeIsInverseOfEncode : Obligations.DecodeIsInverseOfEncode := by
  intro bs rest i
  constructor
  · exact eq_encode_append_of_decode
  · rintro rfl
    exact decode_encode_append i rest

/-- Settles O7: each word is the encoding of its instruction. -/
theorem specWordsDecode : Obligations.SpecWordsDecode :=
  ⟨decode_encode_append .hlt [], decode_encode_append (.ldi 0 8) [], decode_encode_append (.prn 0) [],
    decode_encode_append (.add 2 5) [], decode_encode_append (.call 1) [], decode_encode_append (.pop 7) []⟩

end Sys2Proof
end

section
/-! The invariant (10_state.md R24, R30, R40; 60_exceptions.md R129, R131): it holds after reset, and every kind of step of
40_sequencer.md R83 keeps it. -/

namespace Sys2Proof.Machine

/-! ### The registers after reset -/

theorem resetRegs_seven (p : Params) : (resetRegs p)[7] = p.spReset := Vector.getElem_set_self _

theorem resetRegs_of_ne_seven (p : Params) (i : Fin 7) : (resetRegs p)[i.val] = 0 := by
  have hi : 7 ≠ i.val := by omega
  unfold resetRegs
  rw [Vector.getElem_set_ne _ _ hi, Vector.getElem_replicate]

/-! ### The load port (10_state.md R38) -/

section
variable (s : State)

@[simp] theorem loadPort_x : (loadPort s).x = s.x := by rw [loadPort_eq]
@[simp] theorem loadPort_pc : (loadPort s).pc = s.pc := by rw [loadPort_eq]
@[simp] theorem loadPort_fl : (loadPort s).fl = s.fl := by rw [loadPort_eq]
@[simp] theorem loadPort_run : (loadPort s).run = s.run := by rw [loadPort_eq]
@[simp] theorem loadPort_fault : (loadPort s).fault = s.fault := by rw [loadPort_eq]
@[simp] theorem loadPort_out : (loadPort s).out = s.out := by rw [loadPort_eq]
@[simp] theorem loadPort_params : (loadPort s).params = s.params := by rw [loadPort_eq]
@[simp] theorem loadPort_pins : (loadPort s).pins = s.pins := by rw [loadPort_eq]

end

theorem loadPort_of_ldEn {s : State} (h : s.pins.ldEn = true) :
    loadPort s = s.memWrite s.pins.ldAddr s.pins.ldData := if_pos h

theorem loadPort_of_not_ldEn {s : State} (h : s.pins.ldEn = false) : loadPort s = s :=
  if_neg (Bool.eq_false_iff.1 h)

theorem loadPort_wf {s : State} (h : s.mem.wf) : (loadPort s).mem.wf := by
  unfold loadPort
  split
  · exact memWrite_wf _ _ h
  · exact h

/-! ### All that a step can do, in the terms of what it leaves -/

/-- The faults the instruction set can reach (60_exceptions.md R129). -/
def FaultCause.Arises (c : FaultCause) : Prop :=
  c.code = .unknownOpcode ∧ c.kind = .none ∨ c.code = .outOfRange ∧ c.kind ≠ .none

theorem FaultCause.Arises.code_ne_none {c : FaultCause} (h : c.Arises) : c.code ≠ .none := by
  rcases h with ⟨h, -⟩ | ⟨h, -⟩ <;> simp [h]

theorem FaultCause.Arises.code_ne_unsupported {c : FaultCause} (h : c.Arises) : c.code ≠ .unsupportedAluOp := by
  rcases h with ⟨h, -⟩ | ⟨h, -⟩ <;> simp [h]

theorem FetchFault.arises {c : FaultCause} (h : FetchFault c) : c.Arises := by
  rcases h with ⟨a, rfl⟩ | ⟨b, rfl⟩
  · exact .inr ⟨rfl, FaultKind.noConfusion⟩
  · exact .inl ⟨rfl, rfl⟩

/-- The CHECK phase raises OutOfRangeAccess and nothing else. -/
theorem CheckFails.raises_outOfRange {s t : State} {i : Instr} (h : CheckFails s i t) :
    ∃ c : FaultCause, c.code = .outOfRange ∧ c.kind ≠ .none ∧ t = raise c s := by
  rcases h with ⟨b, -, -, e⟩ | ⟨-, -, e⟩
  · exact ⟨_, rfl, FaultKind.noConfusion, e⟩
  · exact ⟨_, rfl, FaultKind.noConfusion, e⟩

/-- The state a step leaves: one case for each transition of 40_sequencer.md R83. -/
inductive StepLeaves (s : State) : State → Prop where
  | held (hp : s.pins.rst = true) : StepLeaves s (loadPort (holdInReset s))
  | released (hp : s.pins.rst = false) (hr : s.run = .inReset) : StepLeaves s (releaseReset s)
  | stays (hp : s.pins.rst = false) (hr : s.ended) : StepLeaves s s
  | faults (hs : s.ready) (c : FaultCause) (hc : c.Arises) : StepLeaves s (raise c s)
  | commits {t : State} (hs : s.ready) (i : Instr) (hfits : s.fits i) (hbyte : s.mem.read s.pc.toNat = i.op.code)
      (hc : Commits i s t) : StepLeaves s t

theorem step_leaves {s t : State} (h : step s = .next t) : StepLeaves s t := by
  rcases step_cases h with ⟨hp, rfl⟩ | ⟨hp, hr, rfl⟩ | ⟨hp, hr, rfl⟩ | ⟨hs, c, hc, rfl⟩ | ⟨hs, i, hfits, hbyte, hexec⟩
  · exact .held hp
  · exact .released hp hr
  · exact .stays hp hr
  · exact .faults hs c hc.arises
  · rcases exec_cases hexec with hcheck | hcommit
    · obtain ⟨c, hcode, hkind, rfl⟩ := hcheck.raises_outOfRange
      exact .faults hs c (.inr ⟨hcode, hkind⟩)
    · exact .commits hs i hfits hbyte hcommit

/-! ### Each transition keeps the invariant -/

section
variable {s t : State}

theorem State.Inv.withPins (hi : s.Inv) (p : Pins) : (s.withPins p).Inv :=
  ⟨hi.mem_wf, hi.pc_le, hi.record_clear, hi.record_set, hi.held⟩

/-- A core held in reset meets the invariant, whatever state it was held from. -/
theorem inv_of_held (hwf : s.mem.wf) : (loadPort (holdInReset s)).Inv where
  mem_wf := loadPort_wf (s := holdInReset s) hwf
  pc_le := by simp
  record_clear := by simp
  record_set := by simp
  held := by simp [resetRegs_seven, resetRegs_of_ne_seven]

theorem State.Inv.releaseReset (hi : s.Inv) (hr : s.run = .inReset) : (releaseReset s).Inv where
  mem_wf := hi.mem_wf
  pc_le := hi.pc_le
  record_clear _ := hi.record_clear (by simp [hr])
  record_set := by simp
  held := by simp

theorem State.Inv.raise (hi : s.Inv) {c : FaultCause} (hc : c.Arises) : (raise c s).Inv where
  mem_wf := hi.mem_wf
  pc_le := hi.pc_le
  record_clear h := absurd (raise_run s c) h
  record_set _ := ⟨rfl, hc⟩
  held := by simp

theorem Commits.mem_wf {i : Instr} (h : Commits i s t) (hwf : s.mem.wf) : t.mem.wf := by
  rcases h.mem with e | ⟨a, v, -, ha, e⟩ <;> rw [e]
  · exact hwf
  · exact Memory.write_wf v hwf ha

/-- A commit of a running core leaves it running or halted. -/
theorem Commits.run_of_running {i : Instr} (h : Commits i s t) (hs : s.run = .running) :
    t.run = .running ∨ t.run = .halted := by
  rcases h.run with hrun | ⟨-, rfl⟩
  · exact .inl (hrun.trans hs)
  · exact .inr rfl

theorem State.Inv.commits (hi : s.Inv) {i : Instr} (hs : s.run = .running) (hfits : s.fits i) (hc : Commits i s t) :
    t.Inv where
  mem_wf := hc.mem_wf hi.mem_wf
  pc_le := hc.pc (fits_len hfits)
  record_clear _ := hc.fault.trans (hi.record_clear (by simp [hs]))
  record_set h := absurd h (hc.run_ne_faulted hs)
  held h := by rcases hc.run_of_running hs with hrun | hrun <;> simp [hrun] at h

theorem step_inv (hi : s.Inv) (h : step s = .next t) : t.Inv := by
  cases step_leaves h with
  | held => exact inv_of_held hi.mem_wf
  | released _ hr => exact hi.releaseReset hr
  | stays => exact hi
  | faults _ _ hc => exact hi.raise hc
  | commits hs _ hfits _ hc => exact hi.commits hs.1 hfits hc

theorem reset_inv : State.reset.Inv where
  mem_wf := Memory.wf_nil
  pc_le := by decide
  record_clear _ := rfl
  record_set h := nomatch h
  held h := nomatch h

theorem Reachable.inv (h : Reachable s) : s.Inv := by
  induction h with
  | reset => exact reset_inv
  | clock p _ hstep hi => exact step_inv (hi.withPins p) hstep

/-- Under the invariant the fault code says whether a fatal error has happened. -/
theorem State.Inv.safe_iff (hi : s.Inv) : s.safe ↔ s.fault.code = .none := by
  constructor
  · intro h
    rw [hi.record_clear h]
    rfl
  · intro hcode h
    obtain ⟨-, hset⟩ := hi.record_set h
    simp [hcode] at hset

end

/-! ### The obligations -/

/-- Settles O16: the invariant through each transition of the execution loop. -/
theorem everyStepKeepsInvariant : Obligations.EveryStepKeepsInvariant := fun _ _ => step_inv

/-- Settles O15: the reset state lists no memory, has faulted on nothing and is not held in reset. -/
theorem resetStateMeetsInvariant : Obligations.ResetStateMeetsInvariant := reset_inv

/-- Settles O17: by induction on the run, from the reset state and the step lemma. -/
theorem reachableStatesMeetInvariant : Obligations.ReachableStatesMeetInvariant :=
  fun _ h => ⟨h.inv, h.inv.safe_iff⟩

end Sys2Proof.Machine
end

section
/-! The input ports (10_state.md R36, R38; decision D16): every step answers a next state, and with `rst = 0` the levels of
the load port make no difference. -/

namespace Sys2Proof.Machine

/-! ### Two runs that differ in the input ports -/

/-- Both outcomes are next states, and the second is the first at the levels `p`. -/
def SameButPins (p : Pins) (r r' : Result) : Prop := ∃ t, r = .next t ∧ r' = .next (t.withPins p)

section
variable {s : State} {p : Pins}

theorem SameButPins.of_next {t : State} : SameButPins p (.next t) (.next (t.withPins p)) := ⟨t, rfl, rfl⟩

theorem withReg_sameButPins (b : Byte) {body body' : Fin Config.nreg → Result}
    (h : ∀ k, SameButPins p (body k) (body' k)) : SameButPins p (withReg b s body) (withReg b (s.withPins p) body') := by
  rcases Nat.lt_or_ge b.toNat 8 with hb | hb
  · rw [withReg_of_lt hb, withReg_of_lt hb]
    exact h _
  · rw [withReg_of_ge hb, withReg_of_ge hb]
    exact .of_next

theorem execAlu_sameButPins (tag : AluTag) (a b : Byte) :
    SameButPins p (execAlu tag a b s) (execAlu tag a b (s.withPins p)) := by
  unfold execAlu withRegs
  refine withReg_sameButPins a fun j => withReg_sameButPins b fun k => ?_
  cases tag with
  | add => exact .of_next
  | mul => exact .of_next
  | cmp => exact .of_next

theorem execCall_sameButPins (r : Byte) : SameButPins p (execCall r s) (execCall r (s.withPins p)) := by
  refine withReg_sameButPins r fun k => ?_
  rw [withPins_pc]
  rcases Nat.lt_or_ge (s.pc.toNat + 2) 256 with hpc | hpc
  · rw [if_neg (Nat.not_le.2 hpc), if_neg (Nat.not_le.2 hpc)]
    exact .of_next
  · rw [if_pos hpc, if_pos hpc]
    exact .of_next

/-- A conditional jump on the same condition. -/
theorem branch_sameButPins (taken : Bool) (r : Byte) :
    SameButPins p (branch taken r s) (branch taken r (s.withPins p)) :=
  withReg_sameButPins r fun _ => .of_next

/-- No instruction reads or drives an input port, and each answers a next state. -/
theorem exec_sameButPins (i : Instr) : SameButPins p (exec i s) (exec i (s.withPins p)) := by
  unfold exec
  cases i with
  | hlt => exact .of_next
  | ret => exact .of_next
  | push r => exact withReg_sameButPins r fun _ => .of_next
  | pop r => exact withReg_sameButPins r fun _ => .of_next
  | prn r => exact withReg_sameButPins r fun _ => .of_next
  | call r => exact execCall_sameButPins r
  | jmp r => exact withReg_sameButPins r fun _ => .of_next
  | jeq r => exact branch_sameButPins s.fl r
  | jne r => exact branch_sameButPins (!s.fl) r
  | ldi r imm => exact withReg_sameButPins r fun _ => .of_next
  | add a b => exact execAlu_sameButPins .add a b
  | mul a b => exact execAlu_sameButPins .mul a b
  | cmp a b => exact execAlu_sameButPins .cmp a b

/-- With `rst = 0` a step answers a next state and reads no other input port. -/
theorem step_sameButPins (hs : s.pins.rst = false) (hp : p.rst = false) :
    SameButPins p (step s) (step (s.withPins p)) := by
  cases hr : s.run with
  | inReset =>
    rw [step_release hs hr, step_release (s := s.withPins p) hp hr]
    exact .of_next
  | halted =>
    rw [step_still hs (.inl hr), step_still (s := s.withPins p) hp (.inl hr)]
    exact .of_next
  | faulted =>
    rw [step_still hs (.inr hr), step_still (s := s.withPins p) hp (.inr hr)]
    exact .of_next
  | running =>
    have hfetch : fetchInstr (s.withPins p) = fetchInstr s := fetchInstr_congr rfl rfl rfl
    cases hf : fetchInstr s with
    | error c =>
      rw [step_error ⟨hr, hs⟩ hf, step_error (s := s.withPins p) ⟨hr, hp⟩ (hfetch.trans hf)]
      exact .of_next
    | ok i =>
      rw [step_ok ⟨hr, hs⟩ hf, step_ok (s := s.withPins p) ⟨hr, hp⟩ (hfetch.trans hf)]
      exact exec_sameButPins i

end

theorem exec_answers (i : Instr) (s : State) : ∃ t, exec i s = .next t := by
  obtain ⟨t, ht, -⟩ := exec_sameButPins (s := s) (p := s.pins) i
  exact ⟨t, ht⟩

theorem step_answers (s : State) : ∃ t, step s = .next t := by
  rcases Bool.eq_false_or_eq_true s.pins.rst with hp | hp
  · exact ⟨_, step_reset hp⟩
  · obtain ⟨t, ht, -⟩ := step_sameButPins hp hp
    exact ⟨t, ht⟩

/-! ### The obligations -/

/-- Settles O18: each transition of a step answers a next state, and so does each instruction. -/
theorem everyStepAnswersANextState : Obligations.EveryStepAnswersANextState := step_answers

/-- Settles O3: two steps side by side that differ in the levels of the load port. -/
theorem loadPortIsIgnoredInARun : Obligations.LoadPortIsIgnoredInARun :=
  fun _ en a v hs => step_sameButPins (p := { rst := false, ldEn := en, ldAddr := a, ldData := v }) hs rfl

end Sys2Proof.Machine
end

section
/-! The transitions of the execution loop (40_sequencer.md R83): what each does to `run`, the fault record, the parameters and
the input ports. -/

namespace Sys2Proof.Machine

section
variable {s t : State}

theorem step_run_of_rst (h : step s = .next t) (hp : s.pins.rst = true) : t.run = .inReset := by
  rw [step_of_rst h hp]
  rfl

theorem step_run_of_inReset (h : step s = .next t) (hp : s.pins.rst = false) (hr : s.run = .inReset) :
    t.run = .running := by
  obtain rfl : releaseReset s = t := Host.Outcome.next.inj ((step_release hp hr).symm.trans h)
  rfl

theorem step_eq_of_ended (h : step s = .next t) (hp : s.pins.rst = false) (hr : s.ended) : t = s :=
  Host.Outcome.next.inj (h.symm.trans (step_still hp hr))

/-- A ready step raises a fault, or commits the instruction whose opcode byte is at `pc`. -/
theorem step_of_ready (h : step s = .next t) (hs : s.ready) :
    (∃ c : FaultCause, c.Arises ∧ t = raise c s) ∨ ∃ i, s.mem.read s.pc.toNat = i.op.code ∧ Commits i s t := by
  obtain ⟨hrun, hrst⟩ := hs
  cases step_leaves h with
  | held hp => simp [hrst] at hp
  | released _ hr => simp [hrun] at hr
  | stays _ hr => simp [State.ended, hrun] at hr
  | faults _ c hc => exact .inl ⟨c, hc, rfl⟩
  | commits _ i _ hbyte hc => exact .inr ⟨i, hbyte, hc⟩

/-- A committed instruction keeps `run`, or its opcode byte was that of HLT. -/
theorem Commits.run_or_hlt {i : Instr} (hc : Commits i s t) (hbyte : s.mem.read s.pc.toNat = i.op.code) :
    t.run = s.run ∨ t = { s with run := .halted } ∧ s.mem.read s.pc.toNat = 0x01#8 := by
  rcases hc.run with hrun | ⟨rfl, ht⟩
  · exact .inl hrun
  · exact .inr ⟨ht, hbyte⟩

/-- A step keeps the fault record, or clears it in reset, or raises a fault that can arise. -/
theorem step_fault (h : step s = .next t) :
    t.fault = s.fault ∧ (s.ready → t.run ≠ .faulted) ∨ s.pins.rst = true ∧ t.fault = FaultRecord.clear ∨
      s.ready ∧ ∃ c : FaultCause, c.Arises ∧ t = raise c s := by
  cases step_leaves h with
  | held hp => exact .inr (.inl ⟨hp, by simp⟩)
  | released _ hr => exact .inl ⟨rfl, fun hs => nomatch hr.symm.trans hs.1⟩
  | stays _ hr => exact .inl ⟨rfl, fun hs => by simp [State.ended, hs.1] at hr⟩
  | faults hs c hc => exact .inr (.inr ⟨hs, c, hc, rfl⟩)
  | commits hs _ _ _ hc => exact .inl ⟨hc.fault, fun _ => hc.run_ne_faulted hs.1⟩

end

/-! ### The obligations -/

/-- Settles O19: one clause for each run state a step can start from. -/
theorem runStateTransitions : Obligations.RunStateTransitions := by
  intro s t h
  refine ⟨step_run_of_rst h, step_run_of_inReset h, fun hp hr => ?_, fun hp hr => ?_, fun hp hr => ?_⟩
  · rcases step_of_ready h ⟨hr, hp⟩ with ⟨c, hc, rfl⟩ | ⟨i, hbyte, hc⟩
    · exact .inr (.inr ⟨_, _, _, hc.code_ne_none, raise_eq c s⟩)
    · rcases hc.run_or_hlt hbyte with hrun | hhlt
      · exact .inl (hrun.trans hr)
      · exact .inr (.inl hhlt)
  · rw [step_eq_of_ended h hp (.inl hr), hr]
  · rw [step_eq_of_ended h hp (.inr hr), hr]

/-- Settles O22: a step that neither resets nor raises a fault keeps the record. -/
theorem faultRecordIsWrittenOnce : Obligations.FaultRecordIsWrittenOnce := by
  intro s t h
  refine ⟨fun hp hne => ?_, fun hs ht => ?_, fun hp => ?_⟩
  · rcases step_fault h with ⟨hkept, -⟩ | ⟨hp', -⟩ | ⟨hs, c, -, rfl⟩
    · exact absurd hkept hne
    · simp [hp] at hp'
    · exact ⟨hs.1, rfl⟩
  · rcases step_of_ready h hs with ⟨c, hc, rfl⟩ | ⟨i, -, hc⟩
    · exact hc.code_ne_none
    · exact absurd ht (hc.run_ne_faulted hs.1)
  · rw [step_of_rst h hp]
    rfl

/-- Settles O23: none of the faults that can arise has that code, so a record that holds it was kept. -/
theorem unsupportedAluOperationIsNeverRaised : Obligations.UnsupportedAluOperationIsNeverRaised := by
  intro s t h hcode
  rcases step_fault h with hkept | ⟨-, hclear⟩ | ⟨-, c, hc, rfl⟩
  · exact hkept
  · rw [hclear] at hcode
    cases hcode
  · exact absurd hcode hc.code_ne_unsupported

/-- Settles O29: no transition writes the parameters or the levels of the input ports. -/
theorem parametersNeverChange : Obligations.ParametersNeverChange := by
  intro s t h
  cases step_leaves h with
  | held => simp
  | released => exact ⟨rfl, rfl⟩
  | stays => exact ⟨rfl, rfl⟩
  | faults => exact ⟨rfl, rfl⟩
  | commits _ _ _ _ hc => exact ⟨hc.params, hc.pins⟩

end Sys2Proof.Machine
end

section
/-! Reset and boot (70_reset_and_hazards.md R146, R149): the values of 10_state.md R40, and the image written through the load
port. -/

namespace Sys2Proof.Machine

/-! ### Runs under driven levels -/

theorem runPins_append {ps qs : List Pins} {s t : State} (h : runPins ps s = .next t) :
    runPins (ps ++ qs) s = runPins qs t := by
  induction ps generalizing s with
  | nil =>
    obtain rfl := Host.Outcome.next.inj h
    rfl
  | cons p ps ih =>
    obtain ⟨s', hs'⟩ := step_answers (s.withPins p)
    rw [runPins_cons hs'] at h
    rw [List.cons_append, runPins_cons hs']
    exact ih h

/-- A core held in reset: all but memory, parameters and input ports has its value of 10_state.md R40. -/
def State.InReset (s : State) : Prop := s = holdInReset s

theorem holdInReset_inReset (s : State) : (holdInReset s).InReset := rfl

/-- One transfer of the load port, from any state. -/
theorem clock_load (a v : Byte) (s : State) : ∃ t, clock (Pins.load a v) s = .next t ∧ t.InReset ∧
    t.params = s.params ∧ t.mem = s.mem.write a.toNat v :=
  ⟨_, step_reset (s := s.withPins (Pins.load a v)) rfl, rfl, rfl, rfl⟩

/-- The levels after a boot release a core held in reset. -/
theorem clock_low {s : State} (hs : s.InReset) :
    clock Pins.low s = .next (releaseReset (s.withPins Pins.low)) :=
  step_release (s := s.withPins Pins.low) rfl (congrArg State.run hs)

/-! ### The image -/

/-- Each cell after the bytes `bs` have been written from `a` on: its byte among them, or what it held. -/
def written (m : Memory) (a : Nat) (bs : List Byte) (b : Nat) : Byte :=
  if a ≤ b then bs[b - a]?.getD (m.read b) else m.read b

theorem written_write_cons {m : Memory} (hm : m.wf) (a : Nat) (v : Byte) (bs : List Byte) (b : Nat) :
    written (m.write a v) (a + 1) bs b = written m a (v :: bs) b := by
  unfold written
  rcases Nat.lt_trichotomy b a with hlt | rfl | hgt
  · rw [if_neg (by omega), if_neg (by omega), Memory.read_write_other hm (by omega)]
  · rw [if_neg (by omega), if_pos (Nat.le_refl b), Memory.read_write_same hm]
    simp
  · obtain ⟨d, rfl⟩ : ∃ d, b = a + 1 + d := ⟨b - (a + 1), by omega⟩
    have hsub : a + 1 + d - a = d + 1 := by omega
    rw [if_pos (by omega), if_pos (by omega), Memory.read_write_other hm (by omega), hsub, List.getElem?_cons_succ,
      Nat.add_sub_cancel_left]

/-- The transfers of the load port write the image, each byte to its cell, and leave the core held in reset. -/
theorem runPins_loadPins {a : Nat} {bs : List Byte} {s : State} (hs : s.InReset) (hm : s.mem.wf)
    (hlen : a + bs.length ≤ 256) :
    ∃ t, runPins (loadPins a bs) s = .next t ∧ t.InReset ∧ t.params = s.params ∧ t.mem.wf ∧
      ∀ b, t.mem.read b = written s.mem a bs b := by
  induction bs generalizing a s with
  | nil => exact ⟨s, rfl, hs, rfl, hm, fun b => by simp [written]⟩
  | cons v bs ih =>
    rw [List.length_cons] at hlen
    have ha256 : a < 256 := by omega
    have ha : (trunc8 a).toNat = a := (trunc8_toNat a).trans (Nat.mod_eq_of_lt ha256)
    obtain ⟨s', hstep, hs', hparams, hmem⟩ := clock_load (trunc8 a) v s
    rw [ha] at hmem
    have hm' : s'.mem.wf := by
      rw [hmem]
      exact Memory.write_wf v hm ha256
    obtain ⟨t, hrun, ht, hparams', htm, hread⟩ := ih hs' hm' (a := a + 1) (by omega)
    refine ⟨t, (runPins_cons hstep).trans hrun, ht, hparams'.trans hparams, htm, fun b => ?_⟩
    rw [hread, hmem, written_write_cons hm]

/-- The boot sequence: hold, load the image, release. -/
theorem runPins_bootPins {image : List Byte} {s : State} (hm : s.mem.wf) (hlen : image.length ≤ 256) :
    ∃ t : State, t.InReset ∧ t.params = s.params ∧ t.mem.wf ∧ (∀ b, t.mem.read b = written s.mem 0 image b) ∧
      runPins (bootPins (.ok image)) s = .next (releaseReset (t.withPins Pins.low)) := by
  obtain ⟨t, hrun, ht, hparams, htm, hread⟩ :=
    runPins_loadPins (a := 0) (bs := image) (holdInReset_inReset (s.withPins Pins.held)) hm (by omega)
  refine ⟨t, ht, hparams, htm, hread, ?_⟩
  calc runPins (bootPins (.ok image)) s
    _ = runPins (loadPins 0 image ++ [Pins.low]) (holdInReset (s.withPins Pins.held)) := runPins_cons (clock_held s)
    _ = runPins [Pins.low] t := runPins_append hrun
    _ = .next (releaseReset (t.withPins Pins.low)) := runPins_cons (clock_low ht)

/-! ### The obligations -/

/-- Settles O1: the registers by the two lemmas on their reset values, the rest as `State.reset` lists it. -/
theorem resetStateValues : Obligations.ResetStateValues :=
  ⟨resetRegs_of_ne_seven _, resetRegs_seven _, rfl, rfl, rfl, rfl, rfl⟩

/-- Settles O2: a step with `rst = 1` holds in reset and serves the load port; a held core with `rst = 0` is released. -/
theorem resetFromAnyState : Obligations.ResetFromAnyState := by
  refine ⟨fun s hp => ⟨_, step_reset hp, ?_⟩, fun s hp hr => step_release hp hr⟩
  simp only [loadPort_x, loadPort_pc, loadPort_fl, loadPort_fault, loadPort_out, loadPort_run, loadPort_params,
    loadPort_pins]
  refine ⟨resetRegs_of_ne_seven _, resetRegs_seven _, rfl, rfl, rfl, rfl, rfl, rfl, rfl, rfl, fun hld => ?_,
    fun hld hm => ?_⟩
  · rw [loadPort_of_not_ldEn (s := holdInReset s) hld, holdInReset_mem]
  · rw [loadPort_of_ldEn (s := holdInReset s) hld]
    exact ⟨Memory.read_write_same hm, fun a ha => Memory.read_write_other hm ha⟩

/-- Settles O4: the transfers write the image into a core held in reset, which the last levels release. -/
theorem bootLoadsTheImageOnce : Obligations.BootLoadsTheImageOnce := by
  intro s image hm hlen
  obtain ⟨t, ht, hparams, htm, hread, hrun⟩ := runPins_bootPins hm hlen
  have hx : t.x = resetRegs s.params := by rw [ht, holdInReset_x, hparams]
  refine ⟨_, hrun, fun i => ?_, ?_, congrArg State.pc ht, congrArg State.fl ht, rfl, congrArg State.fault ht,
    congrArg State.out ht, rfl, hparams, htm, fun a _ => ?_⟩
  · simp only [releaseReset_x, withPins_x, hx]
    exact resetRegs_of_ne_seven _ i
  · simp only [releaseReset_x, withPins_x, hx]
    exact resetRegs_seven _
  · simp only [releaseReset_mem, withPins_mem, hread, written, Nat.zero_le, if_true, Nat.sub_zero]

end Sys2Proof.Machine
end

section
/-! The frame of an instruction (10_state.md R23, R27 to R31; 20_memory.md R47, R62): what it leaves unchanged, whether it
commits or its CHECK phase faults. -/

namespace Sys2Proof.Machine

section
variable {i : Instr} {s t : State}

theorem exec_regs (h : exec i s = .next t) : ∀ k : Fin 8, k.val ∉ regsWritten i → t.x[k.val] = s.x[k.val] := by
  rcases exec_cases h with hcheck | hcommit
  · obtain ⟨c, rfl⟩ := hcheck.raised
    exact fun _ _ => rfl
  · exact hcommit.regs

theorem exec_read_of_ne_storeAddr (hm : s.mem.wf) (h : exec i s = .next t) {a : Nat} (ha : storeAddr i s ≠ some a) :
    t.mem.read a = s.mem.read a := by
  rcases exec_cases h with hcheck | hcommit
  · obtain ⟨c, rfl⟩ := hcheck.raised
    rfl
  · rcases hcommit.mem with hmem | ⟨b, v, hb, -, hmem⟩ <;> rw [hmem]
    have hab : a ≠ b := fun e => ha (e ▸ hb)
    exact Memory.read_write_other hm hab

/-- An instruction keeps `run` and the fault record, or is HLT, or raises OutOfRangeAccess. -/
theorem exec_run_fault (h : exec i s = .next t) :
    (t.run = s.run ∧ t.fault = s.fault) ∨ (i = .hlt ∧ t = { s with run := .halted }) ∨
      ∃ kind info, t = s.faultedWith .outOfRange kind info := by
  rcases exec_cases h with hcheck | hcommit
  · obtain ⟨c, hcode, -, rfl⟩ := hcheck.raises_outOfRange
    exact .inr (.inr ⟨c.kind, c.info, by rw [raise_eq, hcode]⟩)
  · rcases hcommit.run with hrun | hhlt
    · exact .inl ⟨hrun, hcommit.fault⟩
    · exact .inr (.inl hhlt)

theorem exec_params_pins (h : exec i s = .next t) : t.params = s.params ∧ t.pins = s.pins := by
  rcases exec_cases h with hcheck | hcommit
  · obtain ⟨c, rfl⟩ := hcheck.raised
    exact ⟨rfl, rfl⟩
  · exact ⟨hcommit.params, hcommit.pins⟩

/-- With legal operands, and for CALL a return address that a cell can hold, an instruction commits. -/
theorem exec_commits (hi : i.wf = true) (hcall : (∃ r, i = .call r) → s.pc.toNat + 2 < 256) (h : exec i s = .next t) :
    Commits i s t := by
  rcases exec_cases h with (⟨b, hb, hge, -⟩ | ⟨hr, hge, -⟩) | hcommit
  · exact absurd (wf_iff.1 hi b hb) (Nat.not_lt.2 hge)
  · exact absurd (hcall hr) (Nat.not_lt.2 hge)
  · exact hcommit

/-- What a commit does to `run`. -/
theorem Commits.run_eq (hc : Commits i s t) (h : exec i s = .next t) :
    t.run = if i = .hlt then .halted else s.run := by
  split
  · next hi =>
    subst hi
    obtain rfl := Host.Outcome.next.inj ((exec_hlt_eq s).symm.trans h)
    rfl
  · next hi => exact hc.run.resolve_right fun ⟨e, _⟩ => hi e

end

/-! ### The obligations -/

/-- Settles O26: a fault writes no register, a commit those of the table. -/
theorem registersChangeOnlyAsTheTableSays : Obligations.RegistersChangeOnlyAsTheTableSays :=
  fun _ _ _ h => exec_regs h

/-- Settles O27: a fault writes no memory, a commit at most the cell of `storeAddr`. -/
theorem memoryChangesOnlyWherePushedTo : Obligations.MemoryChangesOnlyWherePushedTo :=
  fun _ _ _ hm h _ ha => exec_read_of_ne_storeAddr hm h ha

/-- Settles O28: the frame of each part of the state, a part at a time. -/
theorem instructionsLeaveTheRest : Obligations.InstructionsLeaveTheRest :=
  fun _ _ _ h => ⟨exec_fl_of_ne_cmp h, exec_out_of_ne_prn h, exec_run_fault h, exec_params_pins h⟩

/-- Settles O14: an instruction whose checks pass answers a state, and by a commit. -/
theorem checkedInstructionsCommit : Obligations.CheckedInstructionsCommit := by
  intro i s hi hcall
  obtain ⟨t, h⟩ := exec_answers i s
  have hc := exec_commits hi hcall h
  exact ⟨t, h, hc.fault, hc.run_eq h⟩

end Sys2Proof.Machine
end

section
/-! The register check (30_encoding.md R65, R70; 40_sequencer.md R85): the first register byte of 8 or more is the one
reported. -/

namespace Sys2Proof.Machine

theorem exec_pop_of_ge {r : Byte} {s : State} (hr : 8 ≤ r.toNat) :
    exec (.pop r) s = .next (s.faultedWith .outOfRange .registerIndex (r.setWidth 9)) := by
  simp only [exec, execPop]
  exact withReg_faultedWith_of_ge hr

theorem exec_call_of_ge {r : Byte} {s : State} (hr : 8 ≤ r.toNat) :
    exec (.call r) s = .next (s.faultedWith .outOfRange .registerIndex (r.setWidth 9)) := by
  simp only [exec, execCall]
  exact withReg_faultedWith_of_ge hr

/-! ### The first illegal byte of the register fields -/

theorem first_illegal_of_one {r b : Byte} (h : [r].find? (fun r => 8 ≤ r.toNat) = some b) : r = b ∧ 8 ≤ b.toNat := by
  rw [List.find?_cons_eq_some] at h
  rcases h with ⟨hr, rfl⟩ | ⟨-, h⟩
  · exact ⟨rfl, of_decide_eq_true hr⟩
  · cases h

theorem first_illegal_of_two {r₁ r₂ b : Byte} (h : [r₁, r₂].find? (fun r => 8 ≤ r.toNat) = some b) :
    (r₁ = b ∨ r₁.toNat < 8 ∧ r₂ = b) ∧ 8 ≤ b.toNat := by
  rw [List.find?_cons_eq_some] at h
  rcases h with ⟨hr, rfl⟩ | ⟨hr, h⟩
  · exact ⟨.inl rfl, of_decide_eq_true hr⟩
  · obtain ⟨rfl, hb⟩ := first_illegal_of_one h
    exact ⟨.inr ⟨by simpa using hr, rfl⟩, hb⟩

/-- An instruction that faults on its only register byte faults on the first illegal one. -/
theorem exec_of_first_illegal {i : Instr} {r b : Byte} {s : State} (h : [r].find? (fun r => 8 ≤ r.toNat) = some b)
    (hfault : 8 ≤ r.toNat → exec i s = .next (s.faultedWith .outOfRange .registerIndex (r.setWidth 9))) :
    exec i s = .next (s.faultedWith .outOfRange .registerIndex (b.setWidth 9)) := by
  obtain ⟨rfl, hb⟩ := first_illegal_of_one h
  exact hfault hb

/-- An ALU instruction faults on the first illegal one of its two registers. -/
theorem execAlu_of_first_illegal {tag : AluTag} {r₁ r₂ b : Byte} {s : State}
    (h : [r₁, r₂].find? (fun r => 8 ≤ r.toNat) = some b) :
    execAlu tag r₁ r₂ s = .next (s.faultedWith .outOfRange .registerIndex (b.setWidth 9)) := by
  obtain ⟨rfl | ⟨hr, rfl⟩, hb⟩ := first_illegal_of_two h
  · exact execAlu_of_ge_left hb
  · exact execAlu_of_ge_right hr hb

/-- Settles O13: the instructions with one register field, then those with two. -/
theorem illegalRegisterOperandFaults : Obligations.IllegalRegisterOperandFaults := by
  intro i s b h
  cases i with
  | hlt => cases h
  | ret => cases h
  | push r => exact exec_of_first_illegal h exec_push_of_ge
  | pop r => exact exec_of_first_illegal h exec_pop_of_ge
  | prn r => exact exec_of_first_illegal h exec_prn_of_ge
  | call r => exact exec_of_first_illegal h exec_call_of_ge
  | jmp r => exact exec_of_first_illegal h exec_jmp_of_ge
  | jeq r => exact exec_of_first_illegal h exec_jeq_of_ge
  | jne r => exact exec_of_first_illegal h exec_jne_of_ge
  | ldi r imm => exact exec_of_first_illegal h exec_ldi_of_ge
  | add a b => exact execAlu_of_first_illegal (tag := .add) h
  | mul a b => exact execAlu_of_first_illegal (tag := .mul) h
  | cmp a b => exact execAlu_of_first_illegal (tag := .cmp) h

end Sys2Proof.Machine
end

section
/-! A list of writes to memory (20_memory.md R56): the last write to an address is what it reads as. -/

namespace Sys2Proof.Machine.Memory

/-- The memory after writes, first to last. -/
def writeAll (m : Memory) (ws : List (Byte × Byte)) : Memory := ws.foldl (fun m w => m.write w.1.toNat w.2) m

theorem writeAll_concat (m : Memory) (ws : List (Byte × Byte)) (w : Byte × Byte) :
    m.writeAll (ws ++ [w]) = (m.writeAll ws).write w.1.toNat w.2 := List.foldl_append ..

theorem writeAll_wf {m : Memory} (ws : List (Byte × Byte)) (hm : m.wf) : (m.writeAll ws).wf := by
  induction ws generalizing m with
  | nil => exact hm
  | cons w ws ih => exact ih (write_wf w.2 hm w.1.isLt)

theorem read_writeAll {m : Memory} (ws : List (Byte × Byte)) (a : Nat) (hm : m.wf) :
    (m.writeAll ws).read a = ((ws.reverse.find? fun w => w.1.toNat == a).map (·.2)).getD (m.read a) := by
  induction ws using List.reverseRecOn with
  | nil => rfl
  | append_singleton ws w ih =>
    have hread := read_write w.1.toNat w.2 a (writeAll_wf ws hm)
    rw [writeAll_concat, hread, ih, List.reverse_concat, List.find?_cons]
    by_cases ha : a = w.1.toNat
    · simp [ha]
    · simp [ha, beq_eq_false_iff_ne.2 (Ne.symm ha)]

/-- Settles O30: by induction on the writes from the last one back, by read after write. -/
theorem readGivesTheMostRecentWrite : Obligations.ReadGivesTheMostRecentWrite :=
  fun _ ws a hm => read_writeAll ws a hm

end Sys2Proof.Machine.Memory
end

section
/-! The fetch of a ready step (40_sequencer.md R85 to R87): its checks in order, and the instruction it runs when they pass. -/

namespace Sys2Proof.Machine

section
variable {s : State} {o : Op}

theorem operandWindow_eq_ite (w : FetchWindow) (o : Op) :
    operandWindow w o = if w = .always3 then 2 else o.nops := by cases w <;> rfl

/-- The fault of a `pc` past the memory. -/
theorem step_pc_past (hs : s.ready) (hpc : 256 ≤ s.pc.toNat) :
    step s = .next (s.faultedWith .outOfRange .memoryAddress s.pc) := step_error hs (fetchInstr_past hpc)

/-- A ready step at a legal opcode: the instruction with the bytes after it, or the fault of its fetch window. -/
theorem step_of_opcode (hs : s.ready) (hpc : s.pc.toNat < 256) (ho : decodeOpcode (s.mem.read s.pc.toNat) = some o) :
    step s =
      if s.pc.toNat + (if s.params.fetchWindow = .always3 then 2 else o.nops) < 256 then
        exec (assemble o (s.mem.read (s.pc.toNat + 1)) (s.mem.read (s.pc.toNat + 2))) s
      else .next (s.faultedWith .outOfRange .memoryAddress 256) := by
  rw [← operandWindow_eq_ite]
  split
  · next hw => exact step_ok hs (fetchInstr_reads ho hw)
  · next hw => exact step_operands_past hs hpc (decodeOpcode_eq_some.1 ho) (Nat.not_lt.1 hw)

/-- The first operand address past the memory is its end. -/
theorem first_past_eq_end {p k : Nat} (hp : p < 256) (hk : 1 ≤ k) (hpast : 256 ≤ p + k)
    (hbefore : ∀ j, 1 ≤ j → j < k → p + j < 256) : p + k = 256 := by
  rcases Nat.lt_or_ge 1 k with hk' | hk'
  · have := hbefore (k - 1) (by omega) (by omega)
    omega
  · omega

/-- An instruction reads as many of the operand bytes as its row has. -/
theorem assemble_congr {b₁ b₂ c₁ c₂ : Byte} (h₁ : 1 ≤ o.nops → b₁ = c₁) (h₂ : 2 ≤ o.nops → b₂ = c₂) :
    assemble o b₁ b₂ = assemble o c₁ c₂ := by
  cases o <;> simp_all [Op.nops, Op.format, Format.nops, assemble]

theorem operand_bytesAt (m : Memory) {a n k : Nat} (hk : k < n) : operand (m.bytesAt a n) k = m.read (a + k) := by
  induction n generalizing a k with
  | zero => exact absurd hk (Nat.not_lt_zero k)
  | succ n ih =>
    cases k with
    | zero => rfl
    | succ k =>
      have h := ih (a := a + 1) (Nat.lt_of_succ_lt_succ hk)
      rw [Nat.add_assoc, Nat.add_comm 1 k] at h
      exact h

/-- As many bytes of memory as the row has operands make its instruction. -/
theorem assemble_bytesAt {m : Memory} {a n : Nat} (hn : o.nops ≤ n) :
    assemble o (operand (m.bytesAt a n) 0) (operand (m.bytesAt a n) 1) = assemble o (m.read a) (m.read (a + 1)) :=
  assemble_congr (fun h => operand_bytesAt m (Nat.le_trans h hn)) (fun h => operand_bytesAt m (Nat.le_trans h hn))

/-- The bytes from `pc` on decode to an instruction only if the opcode at `pc` is its row's and the bytes after it are its
operands. -/
theorem decode_bytesAt {m : Memory} {a n : Nat} {i : Instr} {rest : List Byte}
    (h : decode (m.bytesAt a n) = .ok (i, rest)) :
    decodeOpcode (m.read a) = some i.op ∧ i = assemble i.op (m.read (a + 1)) (m.read (a + 2)) := by
  cases n with
  | zero => cases h
  | succ n =>
    obtain ⟨o, hcode, hlen, rfl, -⟩ := decode_cons.1 h
    rw [bytesAt_length] at hlen
    rw [assemble_bytesAt hlen, assemble_op]
    exact ⟨decodeOpcode_eq_some.2 hcode, rfl⟩

end

/-! ### The obligations -/

/-- Settles O10: `pc`, the opcode, then the operand addresses, the first of which past the memory is 256. -/
theorem stepChecksInOrder : Obligations.StepChecksInOrder := by
  refine fun s hs => ⟨step_pc_past hs, step_unknown hs, fun o k hpc ho hk hle hpast hbefore => ?_⟩
  rw [← operandWindow_eq_ite] at hle
  rw [first_past_eq_end hpc hk hpast hbefore]
  exact step_operands_past hs hpc (decodeOpcode_eq_some.1 ho) (by omega)

/-- Settles O12: two operand bytes are fetched whatever the row, and at 254 and 255 they are past the memory. -/
theorem always3WindowFaultsNearTheEnd : Obligations.Always3WindowFaultsNearTheEnd := by
  intro s o hs hw hge hlt ho
  refine step_operands_past hs hlt (decodeOpcode_eq_some.1 ho) ?_
  rw [hw]
  exact Nat.add_le_add_right hge 2

/-- Settles O9: the fetch puts together the instruction that the bytes at `pc` decode to. -/
theorem stepRunsTheDecodedInstruction : Obligations.StepRunsTheDecodedInstruction := by
  intro s i n rest hs hdecode hfits
  obtain ⟨ho, hi⟩ := decode_bytesAt hdecode
  have hfetch := fetchInstr_reads ho hfits
  rw [← hi] at hfetch
  exact step_ok hs hfetch

end Sys2Proof.Machine
end

section
/-! POP, CALL, RET and HLT (42_register_and_stack.md R112; 43_control_transfer.md R117, R118; 44_system.md R121), and what a
pop after a push and a return after a call give back. -/

namespace Sys2Proof.Machine

section
variable {s : State} {r : Byte}

/-! ### Effects -/

/-- POP with a legal register. -/
theorem exec_pop_of_lt (hr : r.toNat < 8) :
    exec (.pop r) s = .next { s with
      x := (s.x.set r.toNat (s.mem.read s.x[7].toNat)).set 7 ((s.x.set r.toNat (s.mem.read s.x[7].toNat))[7] + 1)
      pc := s.pc + 2 } := by
  simp only [exec, execPop]
  exact withReg_of_lt hr

/-- CALL with a legal register and a return address that a cell can hold. -/
theorem exec_call_of_lt (hr : r.toNat < 8) (hpc : s.pc.toNat + 2 < 256) :
    exec (.call r) s = .next { s with
      x := s.x.set 7 (s.x[7] - 1)
      mem := s.mem.write (s.x[7] - 1).toNat (trunc8 (s.pc.toNat + 2))
      pc := zext9 (s.x.set 7 (s.x[7] - 1))[r.toNat] } := by
  simp only [exec, execCall]
  rw [withReg_of_lt hr, if_neg (Nat.not_le.2 hpc), pushByte_eq]
  rfl

/-- CALL with a legal register at 254: no cell can hold the return address (decision D6). -/
theorem exec_call_return_address (hr : r.toNat < 8) (hpc : s.pc.toNat = 254) :
    exec (.call r) s = .next (s.faultedWith .outOfRange .returnAddress 256) := by
  have hpc' : s.pc = 254 := BitVec.eq_of_toNat_eq hpc
  have hret : s.fallThrough 2 = 256 := by rw [State.fallThrough, hpc']; rfl
  simp only [exec, execCall]
  rw [withReg_of_lt hr, if_pos (by rw [hpc]), hret]
  rfl

/-! ### Where an instruction without operands runs -/

/-- With the exact fetch window an instruction without operands runs at every cell. -/
theorem step_of_no_operands {o : Op} (ho : o.nops = 0) (hs : s.ready) (hw : s.params.fetchWindow = .exactWindow)
    (hpc : s.pc.toNat < 256) (hread : s.mem.read s.pc.toNat = o.code) :
    step s = exec (assemble o (s.mem.read (s.pc.toNat + 1)) (s.mem.read (s.pc.toNat + 2))) s := by
  have hwindow : operandWindow s.params.fetchWindow o = 0 := by rw [hw]; exact ho
  exact step_ok hs (fetchInstr_reads (decodeOpcode_eq_some.2 hread) (by omega))

/-! ### Pushing and popping -/

/-- The byte PUSH stores: the register as the decrement of the stack pointer left it (40_sequencer.md R92). -/
theorem pushed_byte_eq (x : Vector Byte Config.nreg) (hr : r.toNat < 8) :
    (x.set 7 (x[7] - 1))[r.toNat] = if r.toNat = 7 then x[7] - 1 else x[r.toNat] := by
  rw [Vector.getElem_set]
  simp only [eq_comm]

/-- The decrement of the stack pointer, the write of the popped byte to its register and the increment give back the
registers. -/
theorem registers_push_pop (x : Vector Byte Config.nreg) {n : Nat} (hn : n < 8) :
    let y := (x.set 7 (x[7] - 1)).set n (x.set 7 (x[7] - 1))[n]
    y.set 7 (y[7] + 1) = x := by
  intro y
  have hy : y = x.set 7 (x[7] - 1) := Vector.set_getElem_self hn
  rw [hy, Vector.getElem_set_self, BitVec.sub_add_cancel, Vector.set_set]
  exact Vector.set_getElem_self _

end

/-! ### The obligations -/

/-- Settles O37: the register check of POP, passed and failed, and the fetch of its operand byte. -/
theorem popRule : Obligations.PopRule := fun _ _ =>
  ⟨rfl, exec_pop_of_lt, exec_pop_of_ge, step_exactWindow_past (o := .pop) (Nat.le_refl 1)⟩

/-- Settles O38: POP reads back the byte PUSH wrote, and the stack pointer goes down and up again. -/
theorem pushThenPopRestores : Obligations.PushThenPopRestores := by
  intro s r hr hm
  refine ⟨_, _, exec_push_of_lt hr, exec_pop_of_lt hr, ?_, rfl, ?_⟩
  · simp only [Vector.getElem_set_self, Memory.read_write_same hm]
    exact registers_push_pop s.x hr
  · exact (Memory.read_write_same hm).trans (pushed_byte_eq s.x hr)

/-- Settles O42: CALL is one write to memory and a jump; its three faults are the register, the return address and the
fetch. -/
theorem callPushesAndJumps : Obligations.CallPushesAndJumps := fun _ _ =>
  ⟨rfl,
    fun hr hm hpc => ⟨_, exec_call_of_lt hr hpc, rfl, Memory.read_write_same hm,
      fun _ ha => Memory.read_write_other hm ha⟩,
    exec_call_of_ge, exec_call_return_address, step_exactWindow_past (o := .call) (Nat.le_refl 1)⟩

/-- Settles O43: the effect of RET, and where its fetch fits in each window. -/
theorem retRule : Obligations.RetRule := by
  refine fun s => ⟨rfl, exec_ret_eq s, step_of_no_operands (o := .ret) rfl, fun hs hw hge hlt hread => ?_,
    fun hs hpc => ?_⟩
  · exact always3WindowFaultsNearTheEnd s .ret hs hw hge hlt (decodeOpcode_eq_some.2 hread)
  · have hpc' : s.pc = 256#9 := BitVec.eq_of_toNat_eq hpc
    rw [step_pc_past hs hpc.ge, hpc']

/-- Settles O44: RET reads the return address where CALL wrote it, and increments the stack pointer CALL decremented. -/
theorem callThenRetReturns : Obligations.CallThenRetReturns := by
  intro s r hr hm hpc
  refine ⟨_, exec_call_of_lt hr hpc, fun v hsp hcell => ⟨_, exec_ret_eq v, ?_, ?_, fun k => ?_⟩⟩
  · rw [hsp, hcell]
    simp only [Vector.getElem_set_self, Memory.read_write_same hm]
    rw [zext9_toNat, trunc8_toNat, Nat.mod_eq_of_lt hpc]
  · simp only [hsp, Vector.getElem_set_self]
    exact BitVec.sub_add_cancel _ _
  · exact Vector.getElem_set_ne (by decide) _ (by omega)

/-- Settles O45: the effect of HLT, where its fetch fits, and that no other commit and no fault halts. -/
theorem hltStopsTheCore : Obligations.HltStopsTheCore := by
  refine fun s => ⟨rfl, exec_hlt_eq s, step_of_no_operands (o := .hlt) rfl,
    fun hp => step_still (s := { s with run := .halted }) hp (.inl rfl), fun i t h hs ht => ?_⟩
  rcases exec_run_fault h with ⟨hrun, -⟩ | ⟨hi, -⟩ | ⟨kind, info, rfl⟩
  · exact absurd (hrun.symm.trans ht) hs
  · exact hi
  · cases ht

end Sys2Proof.Machine
end

section
/-! Fetch after a push (20_memory.md R60): the byte that PUSH or CALL stores is what a later fetch reads in its cell, as an
opcode or as an operand. -/

namespace Sys2Proof.Machine

/-- `i` is PUSH or CALL of the register `r`, its checks pass, and `v` is the byte it stores. -/
def Stores (s : State) (i : Instr) (r v : Byte) (hr : r.toNat < 8) : Prop :=
  (i = .push r ∧ v = if r.toNat = 7 then s.x[7] - 1 else s.x[r.toNat]) ∨
  (i = .call r ∧ s.pc.toNat + 2 < 256 ∧ v = BitVec.ofNat 8 (s.pc.toNat + 2))

section
variable {s t : State} {i : Instr} {r v : Byte} {a : Nat} {hr : r.toNat < 8}

/-- The cell below the stack pointer holds the byte stored, and that cell is `storeAddr`. -/
theorem Stores.read (hst : Stores s i r v hr) (hm : s.mem.wf) (ha : storeAddr i s = some a) (h : exec i s = .next t) :
    t.mem.read a = v := by
  rcases hst with ⟨rfl, rfl⟩ | ⟨rfl, hpc, rfl⟩
  · obtain rfl := Option.some.inj ha
    obtain rfl := Host.Outcome.next.inj ((exec_push_of_lt hr).symm.trans h)
    exact (Memory.read_write_same hm).trans (pushed_byte_eq s.x hr)
  · obtain rfl := Option.some.inj ha
    obtain rfl := Host.Outcome.next.inj ((exec_call_of_lt hr hpc).symm.trans h)
    exact Memory.read_write_same hm

theorem Stores.addr_lt (hst : Stores s i r v hr) (ha : storeAddr i s = some a) : a < 256 := by
  rcases hst with ⟨rfl, -⟩ | ⟨rfl, -⟩
  · exact Option.some.inj ha ▸ BitVec.isLt _
  · exact Option.some.inj ha ▸ BitVec.isLt _

/-- CALL R7 jumps to the cell it stored the return address in, and the core runs on. -/
theorem Stores.call_sp (hst : Stores s i r v hr) (hi : i = .call 7) (hs : s.ready) (ha : storeAddr i s = some a)
    (h : exec i s = .next t) : t.ready ∧ t.pc.toNat = a := by
  rcases hst with ⟨rfl, -⟩ | ⟨rfl, hpc, -⟩
  · cases hi
  · obtain rfl := Instr.call.inj hi
    obtain rfl := Option.some.inj ha
    obtain rfl := Host.Outcome.next.inj ((exec_call_of_lt hr hpc).symm.trans h)
    refine ⟨hs, (zext9_toNat _).trans (congrArg BitVec.toNat ?_)⟩
    exact Vector.getElem_set_self _

end

/-- The `k`-th byte of an instruction put together from two operand bytes is the `k`-th of these. -/
theorem encode_assemble_getElem {o : Op} {b₁ b₂ : Byte} {k : Nat} (hk : k < o.nops) :
    (encode (assemble o b₁ b₂))[k + 1]? = [b₁, b₂][k]? := by
  have hassemble : assemble o b₁ b₂ = assemble o (operand [b₁, b₂] 0) (operand [b₁, b₂] 1) := rfl
  rw [hassemble, encode_assemble (nops_le_two o), List.getElem?_cons_succ, List.getElem?_take_of_lt hk]

/-- An operand byte of the instruction a ready step runs is the byte in its cell. -/
theorem step_operand {u : State} {o : Op} {k : Nat} (hu : u.ready) (ho : decodeOpcode (u.mem.read u.pc.toNat) = some o)
    (hk : 1 ≤ k) (hle : k ≤ o.nops)
    (hw : u.pc.toNat + (if u.params.fetchWindow = .always3 then 2 else o.nops) < 256) :
    ∃ j, step u = exec j u ∧ j.op = o ∧ (encode j)[k]? = some (u.mem.read (u.pc.toNat + k)) := by
  refine ⟨assemble o (u.mem.read (u.pc.toNat + 1)) (u.mem.read (u.pc.toNat + 2)), ?_, assemble_op .., ?_⟩
  · rw [step_of_opcode hu (by omega) ho, if_pos hw]
  · have htwo := nops_le_two o
    obtain ⟨k, rfl⟩ := Nat.exists_eq_add_of_le' hk
    rw [encode_assemble_getElem hle]
    obtain rfl | rfl : k = 0 ∨ k = 1 := by omega
    · rfl
    · rfl

/-- Settles O31: the cell holds the byte stored, so it is the opcode or the operand that the fetch reads there. -/
theorem fetchSeesThePushedByte : Obligations.FetchSeesThePushedByte := by
  intro s t u i r v a hr hs hm hst ha h hu hcell
  have hstores : Stores s i r v hr := hst
  have hread : u.mem.read a = v := hcell.trans (hstores.read hm ha h)
  have hlt := hstores.addr_lt ha
  refine ⟨fun hpc => ?_, fun o k ho hk hle hpc hw => ?_, fun hi => hstores.call_sp hi hs ha h⟩
  · subst hpc
    rw [← hread]
    exact ⟨step_unknown hu hlt, fun o ho => step_of_opcode hu hlt ho⟩
  · rw [← hread, ← hpc]
    exact step_operand hu ho hk hle hw

end Sys2Proof.Machine
end

section
/-! Program text (30_encoding.md R73; decisions D13, D15): what a line gives, and which sources are loaded. -/

namespace Sys2Proof.Machine

/-! ### What stands before the comment -/

/-- The line is `text`, or `text` and a comment. -/
def IsLineOf (text line : List Char) : Prop := line = text ∨ ∃ c, line = text ++ '#' :: c

theorem takeWhile_of_isLineOf {text line : List Char} (htext : ∀ c ∈ text, c ≠ '#') (h : IsLineOf text line) :
    line.takeWhile (· != '#') = text := by
  rcases h with rfl | ⟨c, rfl⟩
  · exact takeWhile_text htext
  · exact takeWhile_comment c htext

theorem binaryDigits_ne_hash (v : Byte) : ∀ c ∈ binaryDigits v, c ≠ '#' := by
  intro c hc
  rcases binaryDigits_chars v c hc with rfl | rfl <;> decide

theorem binaryDigits_not_ws (v : Byte) : ∀ c ∈ binaryDigits v, c.isWhitespace = false := by
  intro c hc
  rcases binaryDigits_chars v c hc with rfl | rfl <;> decide

theorem binaryDigits_ne_nil (v : Byte) : binaryDigits v ≠ [] := List.ne_nil_of_length_pos (by simp)

/-- Each line is its pre-comment content with white space around it, and perhaps a comment. -/
theorem isLineOf_preComment (line : List Char) : ∃ w₁ w₂, (∀ c ∈ w₁ ++ w₂, c.isWhitespace = true) ∧
    IsLineOf (w₁ ++ preComment line ++ w₂) line := by
  obtain ⟨w₁, w₂, hws, htext⟩ := preComment_between line
  exact ⟨w₁, w₂, hws, htext ▸ line_eq line⟩

/-- The pre-comment content is the digits of a byte exactly if these stand there with white space around them. -/
theorem preComment_eq_binaryDigits {line : List Char} {v : Byte} :
    preComment line = binaryDigits v ↔ ∃ w₁ w₂, (∀ c ∈ w₁ ++ w₂, c.isWhitespace = true) ∧
      IsLineOf (w₁ ++ binaryDigits v ++ w₂) line := by
  constructor
  · intro h
    exact h ▸ isLineOf_preComment line
  · rintro ⟨w₁, w₂, hws, hline⟩
    have htext : ∀ c ∈ w₁ ++ binaryDigits v ++ w₂, c ≠ '#' := by
      have hne := ne_hash_of_ws hws
      simp only [List.mem_append] at hne ⊢
      rintro c ((hc | hc) | hc)
      · exact hne c (.inl hc)
      · exact binaryDigits_ne_hash v c hc
      · exact hne c (.inr hc)
    rw [preComment, takeWhile_of_isLineOf htext hline]
    exact trim_between hws (binaryDigits_not_ws v) (binaryDigits_ne_nil v)

/-- The pre-comment content is empty exactly if nothing but white space stands there. -/
theorem preComment_eq_nil {line : List Char} :
    preComment line = [] ↔ ∃ w, (∀ c ∈ w, c.isWhitespace = true) ∧ IsLineOf w line := by
  constructor
  · intro h
    obtain ⟨w₁, w₂, hws, hline⟩ := isLineOf_preComment line
    rw [h, List.append_nil] at hline
    exact ⟨w₁ ++ w₂, hws, hline⟩
  · rintro ⟨w, hws, hline⟩
    rw [preComment, takeWhile_of_isLineOf (ne_hash_of_ws hws) hline, List.dropWhile_eq_nil_iff.2 hws]
    rfl

/-! ### What a line gives -/

theorem parseLine_of_nil {line : List Char} (h : preComment line = []) : parseLine line = .ok none := by
  simp [parseLine, h]

theorem parseLine_of_binaryDigits {line : List Char} {v : Byte} (h : preComment line = binaryDigits v) :
    parseLine line = .ok (some v) := by
  simp [parseLine, h, binaryDigits_ne_nil, trunc8]

/-- All that a line can give. -/
theorem parseLine_cases (line : List Char) :
    (preComment line = [] ∧ parseLine line = .ok none) ∨
    (∃ v, preComment line = binaryDigits v ∧ parseLine line = .ok (some v)) ∨
    parseLine line = .error .badLine := by
  cases h : parseLine line with
  | error e => exact .inr (.inr (congrArg _ (parseLine_error h)))
  | ok b =>
    by_cases hnil : preComment line = []
    · exact .inl ⟨hnil, h.symm.trans (parseLine_of_nil hnil)⟩
    · have hdigits : ∃ v, preComment line = binaryDigits v := by
        simp only [parseLine, List.isEmpty_iff, hnil, if_false] at h
        split at h
        · next hlen =>
          split at h
          · next hv => exact exists_binaryDigits hlen (bitsValue_chars hv)
          · cases h
        · cases h
      obtain ⟨v, hv⟩ := hdigits
      exact .inr (.inl ⟨v, hv, h.symm.trans (parseLine_of_binaryDigits hv)⟩)

theorem parseLine_eq_none {line : List Char} : parseLine line = .ok none ↔ preComment line = [] := by
  refine ⟨fun h => ?_, parseLine_of_nil⟩
  rcases parseLine_cases line with ⟨hnil, -⟩ | ⟨v, -, e⟩ | e
  · exact hnil
  · cases h.symm.trans e
  · cases h.symm.trans e

theorem parseLine_eq_some {line : List Char} {v : Byte} :
    parseLine line = .ok (some v) ↔ preComment line = binaryDigits v := by
  refine ⟨fun h => ?_, parseLine_of_binaryDigits⟩
  rcases parseLine_cases line with ⟨-, e⟩ | ⟨w, hw, e⟩ | e
  · cases h.symm.trans e
  · cases h.symm.trans e
    exact hw
  · cases h.symm.trans e

/-! ### Sources -/

/-- A bad line is none of those accepted. -/
theorem not_accepted_of_error {lines : List (List Char)} {l : List Char} {e : LoadError} (hl : l ∈ lines)
    (he : parseLine l = .error e) (bs : List (Option Byte)) : lines.map parseLine ≠ bs.map .ok := by
  intro h
  have hmem : Except.error e ∈ bs.map .ok := by
    rw [← h, ← he]
    exact List.mem_map_of_mem hl
  obtain ⟨b, -, hb⟩ := List.mem_map.1 hmem
  cases hb

/-! ### The obligations -/

/-- Settles O6: a line's byte is read off its pre-comment content, which is the digits, empty, or bad. -/
theorem programLineGivesItsByte : Obligations.ProgramLineGivesItsByte := by
  refine fun line => ⟨fun v => ?_, ?_, fun h => ?_⟩
  · rw [parseLine_eq_some, preComment_eq_binaryDigits]
    simp only [IsLineOf, exists_and_left, exists_or, exists_const]
  · rw [parseLine_eq_none, preComment_eq_nil]
    simp only [IsLineOf, exists_and_left, exists_or, exists_const]
  · rcases parseLine_cases line with ⟨-, e⟩ | ⟨v, -, e⟩ | e
    · exact absurd e (h _)
    · exact absurd e (h _)
    · exact e

/-- Settles O47: a source has a bad line, or gives its bytes, at most 256 of them or too many. -/
theorem sourceGivesItsImageOrIsRefused : Obligations.SourceGivesItsImageOrIsRefused := by
  refine ⟨rfl, fun lines hne hlines => ?_⟩
  rcases loadProgram_cases hne hlines with ⟨bs, hbs, hload⟩ | ⟨l, hl, hbad, hload⟩ <;> rw [hload]
  · have hunique {bs' : List (Option Byte)} (h : lines.map parseLine = bs'.map .ok) : bs' = bs :=
      List.map_injective_iff.2 (fun _ _ => Except.ok.inj) (h.symm.trans hbs)
    refine ⟨fun image => ?_, fun ⟨l, hl, e, he⟩ => absurd hbs (not_accepted_of_error hl he bs), fun bs' h hlong => ?_⟩
    · split
      · next hlong =>
        refine ⟨nofun, fun ⟨bs', h, himage, hlen⟩ => ?_⟩
        subst himage
        rw [hunique h] at hlen
        exact absurd hlen (Nat.not_le.2 hlong)
      · next hlen =>
        constructor
        · intro h
          cases h
          exact ⟨bs, hbs, rfl, Nat.not_lt.1 hlen⟩
        · rintro ⟨bs', h, rfl, -⟩
          rw [hunique h]
    · rw [hunique h] at hlong
      exact if_pos hlong
  · have hnone := not_accepted_of_error hl hbad
    exact ⟨fun image => ⟨nofun, fun ⟨bs, h, _⟩ => absurd h (hnone bs)⟩, fun _ => ⟨_, rfl, LoadError.noConfusion⟩,
      fun bs h _ => absurd h (hnone bs)⟩

end Sys2Proof.Machine
end
